-- ==== Sys2Proof/Word.lean ====
section
/-! DEFINITION. The values that cross the block's interface: elements of a buffer (10_state.md R24) and
target modes (00_scope.md R3). -/

namespace Sys2Proof

/-- One hardware byte, or one 8-bit channel of a color (10_state.md R24). -/
abbrev Byte := BitVec 8

/-- One pixel index (10_state.md R24). -/
abbrev Index := BitVec 8

/-- The result of a table query (10_state.md R24). -/
abbrev Word := BitVec 32

/-- A command word (30_encoding.md R70). -/
abbrev CmdWord := BitVec 32

/-- A color, neutral or quantized: the same four channels of 8 bits (10_state.md R24). -/
structure Color where
  r : Byte
  g : Byte
  b : Byte
  a : Byte
deriving DecidableEq, Repr, Inhabited

/-- One element of a buffer, whole (10_state.md R24, 20_memory.md R40). -/
inductive Element where
  | color (c : Color)
  | byte (b : Byte)
  | index (x : Index)
  | word (w : Word)
deriving DecidableEq, Repr

/-- The nine real target modes, in the document's order (00_scope.md R3). -/
inductive Target where
  | snes
  | snesMode7
  | gb
  | gbc
  | gba
  | gbaAffine
  | md
  | pce
  | pceSprite
deriving DecidableEq, Repr

/-- A mode operand: the sentinel `none` or a real mode (00_scope.md R3). -/
inductive Mode where
  | none
  | real (t : Target)
deriving DecidableEq, Repr

end Sys2Proof
end

