-- ==== Sys2Proof/Syntax.lean ====
section
/-! DEFINITION. The 20 operations of 30_encoding.md R74 as syntax: the mode operand, and for the five operations
with an `arg` column that operand as a natural (30_encoding.md R72). -/

namespace Sys2Proof

/-- One operation with its operands; one constructor per row of spec/opcode_table.json. The input buffer is no
operand field: it is the second half of the request (10_state.md R23). -/
inductive Instr where
  /-- 0x10 `DEFAULT_BPP` (R101) -/
  | defaultBpp (m : Mode)
  /-- 0x11 `ALLOWED_BPP` (R102) -/
  | allowedBpp (m : Mode) (bpp : Nat)
  /-- 0x12 `DEFAULT_TILE_SIZE` (R103) -/
  | defaultTileSize (m : Mode)
  /-- 0x13 `MAX_TILE_COUNT` (R104) -/
  | maxTileCount (m : Mode)
  /-- 0x14 `TILE_WIDTH_ALLOWED` (R105) -/
  | tileWidthAllowed (m : Mode) (width : Nat)
  /-- 0x15 `TILE_HEIGHT_ALLOWED` (R106) -/
  | tileHeightAllowed (m : Mode) (height : Nat)
  /-- 0x16 `TILE_FLIPPING_ALLOWED` (R107) -/
  | tileFlippingAllowed (m : Mode)
  /-- 0x17 `DEFAULT_MAP_SIZE` (R108) -/
  | defaultMapSize (m : Mode)
  /-- 0x18 `DEFAULT_PALETTE_COUNT` (R109) -/
  | defaultPaletteCount (m : Mode)
  /-- 0x19 `COL0_IS_SHARED` (R110) -/
  | col0IsShared (m : Mode)
  /-- 0x1A `COL0_IS_SHARED_FOR_SPRITE` (R111) -/
  | col0IsSharedForSprite (m : Mode)
  /-- 0x20 `REDUCE_COLOR` (R132) -/
  | reduceColor (m : Mode)
  /-- 0x21 `REDUCE_COLORS` (R133) -/
  | reduceColors (m : Mode)
  /-- 0x22 `REDUCE_COLORS_SET` (R134) -/
  | reduceColorsSet (m : Mode)
  /-- 0x30 `NORMALIZE_COLOR` (R152) -/
  | normalizeColor (m : Mode)
  /-- 0x31 `NORMALIZE_COLORS` (R153) -/
  | normalizeColors (m : Mode)
  /-- 0x40 `PACK_COLORS` (R166) -/
  | packColors (m : Mode)
  /-- 0x41 `UNPACK_COLORS` (R172) -/
  | unpackColors (m : Mode)
  /-- 0x50 `PACK_TILE` (R201) -/
  | packTile (m : Mode) (bpp : Nat)
  /-- 0x51 `UNPACK_TILE` (R211) -/
  | unpackTile (m : Mode) (bpp : Nat)
deriving DecidableEq, Repr

/-- The mode operand (10_state.md R22). -/
def Instr.mode : Instr → Mode
  | .defaultBpp m => m
  | .allowedBpp m _ => m
  | .defaultTileSize m => m
  | .maxTileCount m => m
  | .tileWidthAllowed m _ => m
  | .tileHeightAllowed m _ => m
  | .tileFlippingAllowed m => m
  | .defaultMapSize m => m
  | .defaultPaletteCount m => m
  | .col0IsShared m => m
  | .col0IsSharedForSprite m => m
  | .reduceColor m => m
  | .reduceColors m => m
  | .reduceColorsSet m => m
  | .normalizeColor m => m
  | .normalizeColors m => m
  | .packColors m => m
  | .unpackColors m => m
  | .packTile m _ => m
  | .unpackTile m _ => m

/-- The scalar operand, 0 for an operation that takes none (30_encoding.md R71). -/
def Instr.arg : Instr → Nat
  | .defaultBpp _ => 0
  | .allowedBpp _ bpp => bpp
  | .defaultTileSize _ => 0
  | .maxTileCount _ => 0
  | .tileWidthAllowed _ width => width
  | .tileHeightAllowed _ height => height
  | .tileFlippingAllowed _ => 0
  | .defaultMapSize _ => 0
  | .defaultPaletteCount _ => 0
  | .col0IsShared _ => 0
  | .col0IsSharedForSprite _ => 0
  | .reduceColor _ => 0
  | .reduceColors _ => 0
  | .reduceColorsSet _ => 0
  | .normalizeColor _ => 0
  | .normalizeColors _ => 0
  | .packColors _ => 0
  | .unpackColors _ => 0
  | .packTile _ bpp => bpp
  | .unpackTile _ bpp => bpp

end Sys2Proof
end

