-- ==== Sys2Proof/WellFormed.lean ====
section
/-! DEFINITION. The one check on an operation as syntax: its scalar operand fits the 16 bits of `arg`. Every
other field is exact by its type. -/

namespace Sys2Proof

/-- "A bit depth, width or height of 65536 or more cannot be presented" (30_encoding.md R72, log entry 17). -/
def Instr.wellFormed (i : Instr) : Bool :=
  decide (i.arg < 65536)

end Sys2Proof
end

