-- ==== Sys2Proof/Decode.lean ====
section
/-! DEFINITION. Decoding a request (30_encoding.md R70 to R81): the command word, then the shape of the input
buffer; and the encoder. -/

namespace Sys2Proof

/-- Why a request spells no operation, one name per decoding step (30_encoding.md R76). Each is answered with the
status `INVALID`; the name is not observable. -/
inductive Reject where
  /-- step 1: the field `zero` is not 0 -/
  | zeroFieldNotZero
  /-- step 2: `op` is no row of R74 -/
  | opUnassigned
  /-- step 3: `mode` is 10 to 15 -/
  | modeReserved
  /-- step 4: `arg` is not 0 on an operation that takes none -/
  | argNotZero
  /-- step 5: the input buffer has not the element type or the count of R81 -/
  | inputShape
deriving DecidableEq, Repr

/-- The result of decoding: an operation, or a rejection by name. -/
inductive Decoding where
  | ok (i : Instr)
  | reject (why : Reject)
deriving DecidableEq, Repr

/-! ### Fields of the command word (30_encoding.md R71) -/

def opField (w : CmdWord) : BitVec 8 := w.extractLsb' 24 8

def zeroField (w : CmdWord) : BitVec 4 := w.extractLsb' 20 4

def modeField (w : CmdWord) : BitVec 4 := w.extractLsb' 16 4

def argField (w : CmdWord) : BitVec 16 := w.extractLsb' 0 16

/-! ### Modes (30_encoding.md R73) -/

/-- The mode a code names; codes 10 to 15 are reserved. -/
def modeOfCode (c : BitVec 4) : Option Mode :=
  match c.toNat with
  | 0 => some .none
  | 1 => some (.real .snes)
  | 2 => some (.real .snesMode7)
  | 3 => some (.real .gb)
  | 4 => some (.real .gbc)
  | 5 => some (.real .gba)
  | 6 => some (.real .gbaAffine)
  | 7 => some (.real .md)
  | 8 => some (.real .pce)
  | 9 => some (.real .pceSprite)
  | _ => none

/-- The code of a mode. -/
def codeOfMode : Mode → BitVec 4
  | .none => 0
  | .real .snes => 1
  | .real .snesMode7 => 2
  | .real .gb => 3
  | .real .gbc => 4
  | .real .gba => 5
  | .real .gbaAffine => 6
  | .real .md => 7
  | .real .pce => 8
  | .real .pceSprite => 9

/-! ### Operations (30_encoding.md R74) -/

/-- A row of R74 by its `arg` column: `plain` where it says none. -/
inductive OpForm where
  | plain (build : Mode → Instr)
  | withArg (build : Mode → Nat → Instr)

/-- The row an operation code selects. -/
def opForm (op : BitVec 8) : Option OpForm :=
  match op.toNat with
  | 0x10 => some (.plain .defaultBpp)
  | 0x11 => some (.withArg .allowedBpp)
  | 0x12 => some (.plain .defaultTileSize)
  | 0x13 => some (.plain .maxTileCount)
  | 0x14 => some (.withArg .tileWidthAllowed)
  | 0x15 => some (.withArg .tileHeightAllowed)
  | 0x16 => some (.plain .tileFlippingAllowed)
  | 0x17 => some (.plain .defaultMapSize)
  | 0x18 => some (.plain .defaultPaletteCount)
  | 0x19 => some (.plain .col0IsShared)
  | 0x1A => some (.plain .col0IsSharedForSprite)
  | 0x20 => some (.plain .reduceColor)
  | 0x21 => some (.plain .reduceColors)
  | 0x22 => some (.plain .reduceColorsSet)
  | 0x30 => some (.plain .normalizeColor)
  | 0x31 => some (.plain .normalizeColors)
  | 0x40 => some (.plain .packColors)
  | 0x41 => some (.plain .unpackColors)
  | 0x50 => some (.withArg .packTile)
  | 0x51 => some (.withArg .unpackTile)
  | _ => none

/-- Step 4 of R76: an operation without `arg` has 0 there; `arg` is used as it stands (R72). -/
def readArg (form : OpForm) (m : Mode) (arg : BitVec 16) : Decoding :=
  match form with
  | .plain build => if arg = 0 then .ok (build m) else .reject .argNotZero
  | .withArg build => .ok (build m arg.toNat)

/-- Steps 1 to 4 of R76: decode a command word. -/
def decode (w : CmdWord) : Decoding :=
  if zeroField w ≠ 0 then .reject .zeroFieldNotZero
  else
    match opForm (opField w) with
    | none => .reject .opUnassigned
    | some form =>
      match modeOfCode (modeField w) with
      | none => .reject .modeReserved
      | some m => readArg form m (argField w)

/-! ### The input buffer (20_memory.md R42, 30_encoding.md R81) -/

/-- The buffer as colors, if every element is one. -/
def colorsOf : List Element → Option (List Color)
  | [] => some []
  | .color c :: rest => (colorsOf rest).map (c :: ·)
  | _ :: _ => none

/-- The buffer as hardware bytes, if every element is one. -/
def bytesOf : List Element → Option (List Byte)
  | [] => some []
  | .byte b :: rest => (bytesOf rest).map (b :: ·)
  | _ :: _ => none

/-- The buffer as pixel indexes, if every element is one. -/
def indexesOf : List Element → Option (List Index)
  | [] => some []
  | .index x :: rest => (indexesOf rest).map (x :: ·)
  | _ :: _ => none

/-- The shapes of an input buffer (30_encoding.md R81). -/
inductive InputShape where
  | nothing
  | oneColor
  | colors
  | colorSet
  | bytes
  | indexes
deriving DecidableEq, Repr

/-- The shape each operation requires (20_memory.md R42, 30_encoding.md R81). -/
def Instr.inputShape : Instr → InputShape
  | .defaultBpp _ => .nothing
  | .allowedBpp _ _ => .nothing
  | .defaultTileSize _ => .nothing
  | .maxTileCount _ => .nothing
  | .tileWidthAllowed _ _ => .nothing
  | .tileHeightAllowed _ _ => .nothing
  | .tileFlippingAllowed _ => .nothing
  | .defaultMapSize _ => .nothing
  | .defaultPaletteCount _ => .nothing
  | .col0IsShared _ => .nothing
  | .col0IsSharedForSprite _ => .nothing
  | .reduceColor _ => .oneColor
  | .reduceColors _ => .colors
  | .reduceColorsSet _ => .colorSet
  | .normalizeColor _ => .oneColor
  | .normalizeColors _ => .colors
  | .packColors _ => .colors
  | .unpackColors _ => .bytes
  | .packTile _ _ => .indexes
  | .unpackTile _ _ => .bytes

/-- A buffer has a shape. An empty buffer has every element type (log entry 12); a set is presented without a
repeated element (R81). -/
def InputShape.accepts : InputShape → List Element → Bool
  | .nothing, input => input.isEmpty
  | .oneColor, input =>
    match colorsOf input with
    | some [_] => true
    | _ => false
  | .colors, input => (colorsOf input).isSome
  | .colorSet, input =>
    match colorsOf input with
    | some cs => decide cs.Nodup
    | none => false
  | .bytes, input => (bytesOf input).isSome
  | .indexes, input => (indexesOf input).isSome

/-- All five steps of R76: decode a request. -/
def decodeRequest (w : CmdWord) (input : List Element) : Decoding :=
  match decode w with
  | .reject why => .reject why
  | .ok i => if i.inputShape.accepts input then .ok i else .reject .inputShape

/-! ### The encoder -/

/-- The operation code (30_encoding.md R74). -/
def Instr.op : Instr → BitVec 8
  | .defaultBpp _ => 0x10
  | .allowedBpp _ _ => 0x11
  | .defaultTileSize _ => 0x12
  | .maxTileCount _ => 0x13
  | .tileWidthAllowed _ _ => 0x14
  | .tileHeightAllowed _ _ => 0x15
  | .tileFlippingAllowed _ => 0x16
  | .defaultMapSize _ => 0x17
  | .defaultPaletteCount _ => 0x18
  | .col0IsShared _ => 0x19
  | .col0IsSharedForSprite _ => 0x1A
  | .reduceColor _ => 0x20
  | .reduceColors _ => 0x21
  | .reduceColorsSet _ => 0x22
  | .normalizeColor _ => 0x30
  | .normalizeColors _ => 0x31
  | .packColors _ => 0x40
  | .unpackColors _ => 0x41
  | .packTile _ _ => 0x50
  | .unpackTile _ _ => 0x51

/-- The command word of an operation: `op`, `zero`, `mode`, `arg` from the top (30_encoding.md R71). -/
def encode (i : Instr) : CmdWord :=
  i.op ++ (0 : BitVec 4) ++ codeOfMode i.mode ++ BitVec.ofNat 16 i.arg

/-! ### The host's numbering of a table word -/

/-- The command word is given whole (30_encoding.md R70): the table's bit `k` is its bit `k`, and bits from `nbits`
up are 0. A number that does not fit the one word there is decodes to nothing (log entry 18). -/
def tableWord (nbits w : Nat) : Nat := w % 2 ^ nbits

def decodeTableWord (nbits w : Nat) : Option Instr :=
  if tableWord nbits w < 2 ^ 32 then
    match decode (BitVec.ofNat 32 (tableWord nbits w)) with
    | .ok i => some i
    | .reject _ => none
  else none

end Sys2Proof
end

