-- ==== Sys2Proof/Machine/State.lean ====
section
/-! DEFINITION. The transient values of an operation (10_state.md R23, R26), the host's side of the interface, and
the reasons a step can stop. -/

namespace Sys2Proof.Machine

/-- A request: the command word and the input buffer (10_state.md R23). -/
structure Request where
  cmd : CmdWord
  input : List Element
deriving DecidableEq, Repr

/-- The failure kinds a response can report (10_state.md R26, 60_exceptions.md R240, R244). -/
inductive Failure where
  /-- "Structural/precondition violation" -/
  | structural
  /-- "Unsupported operation" -/
  | unsupported
  /-- "Programmer/invariant violation": no rule raises it (60_exceptions.md R245) -/
  | internal
  /-- the request spells no operation: the spec's own kind -/
  | invalid
deriving DecidableEq, Repr

/-- The status of a response (10_state.md R26). -/
inductive Status where
  | ok
  | structural
  | unsupported
  | internal
  | invalid
deriving DecidableEq, Repr

/-- An output buffer (20_memory.md R42): a sequence, or for `REDUCE_COLORS_SET` a set of colors. A set is held in
its one canonical form, strictly ascending by color word: equal sets are equal lists, and the listing order carries
no meaning (41_color_quantizer.md R134, log entry 11). -/
inductive Output where
  | seq (elems : List Element)
  | set (colors : List Color)
deriving DecidableEq, Repr

/-- A response: status and output buffer (10_state.md R23). -/
structure Response where
  status : Status
  out : Output
deriving DecidableEq, Repr

/-- The transaction state (log entry 1). The block itself "holds no value between one operation and the next"
(10_state.md R20): `request` is there only while an operation runs, `script` and `responses` are the host's. -/
structure State where
  /-- The request in flight: taken, not yet answered. -/
  request : Option Request
  /-- The requests the host has yet to have answered, the next one first (10_state.md R21). -/
  script : List Request
  /-- The responses delivered so far, newest first. -/
  responses : List Response
deriving DecidableEq, Repr

/-- After reset "the block is idle and takes a request" (70_reset_and_hazards.md R270); the host has issued nothing
(log entries 1 and 2). -/
def State.reset : State where
  request := none
  script := []
  responses := []

/-- No step ends in a machine fault: a failure is the status of a response, after which the block takes the next
request (60_exceptions.md R246), and "Nothing in this spec is treated as stuck" (93_implementation_defined.md;
log entry 3). -/
inductive Fault where
deriving DecidableEq, Repr

/-- Why the model gives a request no result. All but the first are the inputs the spec itself says to `refuse`
(60_exceptions.md R247): safe, since no claim about the result survives. -/
inductive Refusal where
  /-- Raised by a refused arm of `exec` alone, for an operation without a meaning; there is none. Safe. -/
  | notModelled (mnemonic : String)
  /-- Raised by NORMALIZE_COLOR, NORMALIZE_COLORS, PACK_COLORS: a channel of `2^w(m)` or more (42_color_normalizer.md
  R151, 43_color_packer.md R177; U6). Safe. -/
  | channelOutOfRange
  /-- Raised by NORMALIZE_COLOR, NORMALIZE_COLORS, PACK_COLORS with mode `gb`: a color in range whose channels differ
  (42_color_normalizer.md R151, 43_color_packer.md R177; U6). Safe. -/
  | colorNotGray
  /-- Raised by PACK_TILE, UNPACK_TILE: a bit depth the mode does not allow (44_tile_packer.md R202; U9). Safe. -/
  | bppNotAllowed
  /-- Raised by PACK_TILE: an index of `2^bpp` or more (44_tile_packer.md R203; U10). Safe. -/
  | indexOutOfRange
deriving DecidableEq, Repr

/-- How an operation ends: the three primitives of 00_scope.md R11. -/
inductive Answer where
  /-- `respond(OK, out)` -/
  | respond (out : Output)
  /-- `raise <kind>` -/
  | raise (kind : Failure)
  /-- `refuse` -/
  | refuse (why : Refusal)
deriving DecidableEq, Repr

end Sys2Proof.Machine
end

