-- ==== Sys2Proof/Machine/Flags.lean ====
section
/-! DEFINITION. The status, the block's only flag-like value (10_state.md R26): which failure gives which, and the
codes of 60_exceptions.md R241. -/

namespace Sys2Proof.Machine

/-- The status a failure is reported with. -/
def statusOf : Failure → Status
  | .structural => .structural
  | .unsupported => .unsupported
  | .internal => .internal
  | .invalid => .invalid

/-- The 3-bit status field of a response; 5 to 7 are never produced (60_exceptions.md R241). -/
def statusCode : Status → BitVec 3
  | .ok => 0
  | .structural => 1
  | .unsupported => 2
  | .internal => 3
  | .invalid => 4

end Sys2Proof.Machine
end

