-- ==== Sys2Proof/Config.lean ====
section
/-! DEFINITION. The parameters of 00_scope.md R8: their domains, and one opaque constant without a body for each
that the spec leaves OPEN. The values of the fixed ones stand in Machine/Parameters.lean. -/

namespace Sys2Proof

/-- Domain of `LUMA_ROUNDING` (00_scope.md R8). -/
inductive LumaRounding where
  | exact
  | floor
deriving DecidableEq, Repr

/-- Domain of `SPRITE_BIT_ORDER` (00_scope.md R8). -/
inductive BitOrder where
  | msbFirst
  | lsbFirst
deriving DecidableEq, Repr

/-- Byte order of a two-byte hardware color (20_memory.md R43, R44). -/
inductive ByteOrder where
  | little
  | big
deriving DecidableEq, Repr, Inhabited

/-- `(posR, posG, posB, order)`: where the channels of a hardware color word lie (43_color_packer.md R171). -/
structure Layout where
  posR : Nat
  posG : Nat
  posB : Nat
  order : ByteOrder
deriving DecidableEq, Repr, Inhabited

/-- Two fields of `w` bits at `p` and `q` do not overlap. -/
def fieldsApart (w p q : Nat) : Bool :=
  decide (p + w ≤ q) || decide (q + w ≤ p)

/-- What R171 asks of a layout of three 3-bit fields: each position from 0 to 13, no two fields overlap. -/
def Layout.valid (L : Layout) : Bool :=
  decide (L.posR ≤ 13) && decide (L.posG ≤ 13) && decide (L.posB ≤ 13)
    && fieldsApart 3 L.posR L.posG && fieldsApart 3 L.posR L.posB && fieldsApart 3 L.posG L.posB

/-- "the positions of `MD_LAYOUT` differ from those of `PCE_LAYOUT`" (43_color_packer.md R171), read as: the two
triples of positions are not the same triple (DEDUCED, log entry 10). -/
def Layout.positionsDiffer (L M : Layout) : Bool :=
  decide ((L.posR, L.posG, L.posB) ≠ (M.posR, M.posG, M.posB))

/-- The parameters of 00_scope.md R8, a value each. A function that depends on a parameter takes this record as
an argument; a claim about every implementation is a claim about every `Params`. -/
structure Params where
  /-- `T_ALPHA`, the alpha of the transparent sentinel (41_color_quantizer.md R131). -/
  tAlpha : Byte
  /-- `LUMA_ROUNDING` (41_color_quantizer.md R136). -/
  lumaRounding : LumaRounding
  /-- `SPRITE_BIT_ORDER` (20_memory.md R48). -/
  spriteBitOrder : BitOrder
  /-- `DEFAULT_BPP_SNES` (40_mode_capability_table.md R101). -/
  defaultBppSnes : Nat
  /-- `DEFAULT_BPP_GBA` (40_mode_capability_table.md R101). -/
  defaultBppGba : Nat
  /-- `MAX_TILE_COUNT[m]` (40_mode_capability_table.md R104); not read for `pce_sprite`. -/
  maxTileCount : Target → Nat
  /-- `DEFAULT_MAP_SIZE[m]` (40_mode_capability_table.md R108); not read for `snes_mode7`. -/
  defaultMapSize : Target → Nat
  /-- `DEFAULT_PALETTE_COUNT[m]` (40_mode_capability_table.md R109). -/
  defaultPaletteCount : Target → Nat
  /-- `MD_LAYOUT` (43_color_packer.md R171). -/
  mdLayout : Layout
  /-- `PCE_LAYOUT` (43_color_packer.md R171). -/
  pceLayout : Layout

/-- Every parameter lies in its domain (00_scope.md R8, 43_color_packer.md R171). -/
structure Params.Valid (p : Params) : Prop where
  defaultBppSnes : p.defaultBppSnes = 2 ∨ p.defaultBppSnes = 4 ∨ p.defaultBppSnes = 8
  defaultBppGba : p.defaultBppGba = 4 ∨ p.defaultBppGba = 8
  maxTileCount : ∀ t, p.maxTileCount t < 2 ^ 32
  defaultMapSize : ∀ t, p.defaultMapSize t = 0 ∨ p.defaultMapSize t = 32
  defaultPaletteCount : ∀ t, 1 ≤ p.defaultPaletteCount t ∧ p.defaultPaletteCount t ≤ 16
  mdLayout : p.mdLayout.valid = true
  pceLayout : p.pceLayout.valid = true
  layoutsDiffer : p.mdLayout.positionsDiffer p.pceLayout = true

/-- Which of 2, 4, 8 `DEFAULT_BPP_SNES` is: OPEN (D28, log entry 9). -/
opaque Config.defaultBppSnesChoice : Fin 3

/-- Which of 4, 8 `DEFAULT_BPP_GBA` is: OPEN (D28, log entry 9). -/
opaque Config.defaultBppGbaChoice : Fin 2

/-- `MAX_TILE_COUNT[m]`: OPEN, a natural below 2^32 (D29, log entry 9). -/
opaque Config.maxTileCount : Target → BitVec 32

/-- Whether `DEFAULT_MAP_SIZE[m]` is 32 or 0: OPEN (D29, log entry 9). -/
opaque Config.mapSizeApplies : Target → Bool

/-- `DEFAULT_PALETTE_COUNT[m]` less one: OPEN, the count is 1 to 16 (D29, log entry 9). -/
opaque Config.paletteCountLessOne : Target → Fin 16

/-- `MD_LAYOUT` and `PCE_LAYOUT` before their domain is imposed: OPEN (D14, log entry 10). -/
opaque Config.colorLayouts : Layout × Layout

end Sys2Proof
end

