-- ==== Sys2Proof/Machine/Parameters.lean ====
section
/-! DEFINITION. The values of the parameters of 00_scope.md R8 on this machine: a fixed one has the value shown
there, an OPEN one is the constant of Config.lean brought into its domain. -/

namespace Sys2Proof.Machine

/-- `OPAQUE`, the full opaque alpha marker (00_scope.md R8, D7, log entry 8). -/
def opaqueMarker : Byte := 0xFF

/-- `DEFAULT_BPP_SNES`, one of 2, 4, 8. -/
def defaultBppSnes : Nat :=
  match Config.defaultBppSnesChoice with
  | 0 => 2
  | 1 => 4
  | 2 => 8

/-- `DEFAULT_BPP_GBA`, one of 4, 8. -/
def defaultBppGba : Nat :=
  match Config.defaultBppGbaChoice with
  | 0 => 4
  | 1 => 8

/-- The layouts 00_scope.md R8 recalls from outside the document: one value of the domain, used only to bring an
arbitrary pair into it. -/
def recalledLayouts : Layout × Layout :=
  (⟨1, 5, 9, .big⟩, ⟨3, 6, 0, .little⟩)

/-- A pair of layouts brought into the domain of 43_color_packer.md R171. Every pair of the domain is a value of
this function, and no other pair is (log entry 10). -/
def admissibleLayouts (raw : Layout × Layout) : Layout × Layout :=
  if raw.1.valid && raw.2.valid && raw.1.positionsDiffer raw.2 then raw else recalledLayouts

/-- The parameters of this machine. `tAlpha`, `lumaRounding` and `spriteBitOrder` are kept as fields as
41_color_quantizer.md R131, R136 and INDEX.md ask; their values are R8's (log entries 5, 6, 7). -/
def params : Params where
  tAlpha := opaqueMarker
  lumaRounding := .exact
  spriteBitOrder := .msbFirst
  defaultBppSnes := defaultBppSnes
  defaultBppGba := defaultBppGba
  maxTileCount t := (Config.maxTileCount t).toNat
  defaultMapSize t := if Config.mapSizeApplies t then 32 else 0
  defaultPaletteCount t := (Config.paletteCountLessOne t).val + 1
  mdLayout := (admissibleLayouts Config.colorLayouts).1
  pceLayout := (admissibleLayouts Config.colorLayouts).2

end Sys2Proof.Machine
end

