-- ==== Sys2Proof/Machine/Operands.lean ====
section
/-! DEFINITION. What the operand of an operation means: the families of modes and their widths (00_scope.md R4),
the allowed bit depths and dimensions (40_mode_capability_table.md R102, R105), the predicates on colors and indexes
(10_state.md R27 to R29), the placement of a color in its word (10_state.md R24), and the bits of a byte. -/

namespace Sys2Proof.Machine

/-! ### Families (00_scope.md R4) -/

/-- `FAM5`, `FAMGB`, `FAM3`. -/
inductive Family where
  | five
  | gb
  | three
deriving DecidableEq, Repr

def familyOf : Target → Family
  | .snes => .five
  | .snesMode7 => .five
  | .gb => .gb
  | .gbc => .five
  | .gba => .five
  | .gbaAffine => .five
  | .md => .three
  | .pce => .three
  | .pceSprite => .three

/-- The channel width `w(m)`. -/
def channelWidth (t : Target) : Nat :=
  match familyOf t with
  | .five => 5
  | .gb => 2
  | .three => 3

/-- The shift `k(m)`. -/
def channelShift (t : Target) : Nat :=
  match familyOf t with
  | .five => 3
  | .gb => 6
  | .three => 5

/-! ### Table rows that operands are checked against -/

/-- `BPP(mode)` (40_mode_capability_table.md R102). -/
def allowedBpps : Target → List Nat
  | .snes => [2, 4, 8]
  | .snesMode7 => [8]
  | .gb => [2]
  | .gbc => [2]
  | .gba => [4, 8]
  | .gbaAffine => [8]
  | .md => [4]
  | .pce => [4]
  | .pceSprite => [4]

/-- `DIM(mode)` (40_mode_capability_table.md R105, R106). -/
def allowedDims : Target → List Nat
  | .snes => [8, 16]
  | .snesMode7 => [8]
  | .gb => [8]
  | .gbc => [8]
  | .gba => [8]
  | .gbaAffine => [8]
  | .md => [8]
  | .pce => [8]
  | .pceSprite => [16]

/-! ### Predicates on values (10_state.md R27, R28, R29) -/

/-- `InRange(m, q)`: no channel exceeds the mode's channel width; alpha is not constrained (R27). -/
def inRange (t : Target) (q : Color) : Bool :=
  decide (q.r.toNat < 2 ^ channelWidth t) && decide (q.g.toNat < 2 ^ channelWidth t)
    && decide (q.b.toNat < 2 ^ channelWidth t)

/-- `Gray(q)` (R28). -/
def isGray (q : Color) : Bool :=
  decide (q.r = q.g) && decide (q.g = q.b)

/-- `Gray(q)` where the mode is `gb`; no condition elsewhere (R28, 43_color_packer.md R177). -/
def grayInGb (t : Target) (q : Color) : Bool :=
  match familyOf t with
  | .gb => isGray q
  | _ => true

/-- `Representable(m, q)`, the domain of the color round trip (R28). -/
def representable (t : Target) (q : Color) : Bool :=
  inRange t q && decide (q.a = opaqueMarker) && grayInGb t q

/-- `IndexInRange(bpp, d)` (R29). -/
def indexInRange (bpp : Nat) (d : List Index) : Bool :=
  d.all fun x => decide (x.toNat < 2 ^ bpp)

/-! ### A color as a word (10_state.md R24) -/

/-- `R` in bits [7:0], `G` in [15:8], `B` in [23:16], `A` in [31:24]. -/
def colorWord (c : Color) : Word := c.a ++ c.b ++ c.g ++ c.r

/-! ### Sets of colors (41_color_quantizer.md R134) -/

/-- Insert into a strictly ascending list; a color already there is not repeated. -/
def insertColor (c : Color) : List Color → List Color
  | [] => [c]
  | d :: rest =>
    if (colorWord c).toNat < (colorWord d).toNat then c :: d :: rest
    else if c = d then d :: rest
    else d :: insertColor c rest

/-- The set of the listed colors in canonical form: equality of colors is equality of all four channels. -/
def colorSet (cs : List Color) : List Color :=
  cs.foldr insertColor []

/-! ### Bits of a byte -/

/-- The byte whose bit `i` is `bit i`. -/
def byteOfBits (bit : Nat → Bool) : Byte :=
  BitVec.ofFnLE fun i : Fin 8 => bit i.val

end Sys2Proof.Machine
end

