-- ==== Sys2Proof/Machine/Ops.lean ====
section
/-! DEFINITION. The shared operations: the primitives of 00_scope.md R11 over State, taking the operands of a
request, and the checks an operation makes in the order of 60_exceptions.md R248. -/

namespace Sys2Proof.Machine

/-! ### The interface -/

/-- The input buffer of the request in flight; empty where there is none. -/
def State.input (s : State) : List Element :=
  match s.request with
  | some req => req.input
  | none => []

/-- The response delivered last, the result of a script that has ended (70_reset_and_hazards.md R278). -/
def State.lastResponse (s : State) : Option Response := s.responses.head?

/-- Take a request: it is in flight (30_encoding.md R76). -/
def State.take (s : State) (req : Request) : State :=
  { s with request := some req }

/-- The request the block answers next and the state with it in flight: the one in flight, else the first of the
host's script; none where the block is idle (70_reset_and_hazards.md R270, R278). -/
def State.fetch (s : State) : Option (Request × State) :=
  match s.request with
  | some req => some (req, s)
  | none =>
    match s.script with
    | [] => none
    | req :: rest => some (req, { s with script := rest }.take req)

/-- Deliver a response. The request ends, and nothing else of the state changes: neither request nor response
survives in the block (10_state.md R20, R23; 70_reset_and_hazards.md R278). -/
def State.respond (s : State) (status : Status) (out : Output) : State :=
  { s with request := none, responses := ⟨status, out⟩ :: s.responses }

/-- Raising a failure, the block's one form of exception: the response has the failure's status and an empty output
buffer, nothing is saved, control goes nowhere, and the block is ready for the next request (60_exceptions.md R246,
R250). There is no return from it. -/
def State.raise (s : State) (kind : Failure) : State :=
  s.respond (statusOf kind) (.seq [])

/-- How an answer ends the step. -/
def State.deliver (s : State) : Answer → Host.Outcome State Fault Refusal
  | .respond out => .next (s.respond .ok out)
  | .raise kind => .next (s.raise kind)
  | .refuse why => .refused why

/-! ### A request around a given command word (log entry 2) -/

/-- The least input buffer of a shape. -/
def leastInput : InputShape → List Element
  | .oneColor => [.color ⟨0, 0, 0, 0⟩]
  | _ => []

/-- The given buffer where the command word decodes and takes it, else the least buffer the operation takes. -/
def fittingInput (cmd : CmdWord) (input : List Element) : List Element :=
  match decode cmd with
  | .reject _ => input
  | .ok i => if i.inputShape.accepts input then input else leastInput i.inputShape

/-- The request with another command word, its buffer made to fit. -/
def Request.withWord (req : Request) (cmd : CmdWord) : Request where
  cmd := cmd
  input := fittingInput cmd req.input

/-! ### Output buffers (20_memory.md R42) -/

def respondWord (w : Word) : Answer := .respond (.seq [.word w])

def respondColors (cs : List Color) : Answer := .respond (.seq (cs.map .color))

def respondSet (cs : List Color) : Answer := .respond (.set (colorSet cs))

def respondBytes (bs : List Byte) : Answer := .respond (.seq (bs.map .byte))

def respondIndexes (d : List Index) : Answer := .respond (.seq (d.map .index))

/-! ### Operands of a request

A buffer of the wrong shape is `INVALID` before any other check (30_encoding.md R81, 60_exceptions.md R248 (1)). A
decoded request always has the right shape; these operations answer the same for every state (log entry 13). -/

def takeNothing (input : List Element) (go : Answer) : Answer :=
  match input with
  | [] => go
  | _ :: _ => .raise .invalid

def takeColors (input : List Element) (go : List Color → Answer) : Answer :=
  match colorsOf input with
  | some cs => go cs
  | none => .raise .invalid

def takeColor (input : List Element) (go : Color → Answer) : Answer :=
  match colorsOf input with
  | some [c] => go c
  | _ => .raise .invalid

def takeColorSet (input : List Element) (go : List Color → Answer) : Answer :=
  match colorsOf input with
  | some cs => if cs.Nodup then go cs else .raise .invalid
  | none => .raise .invalid

def takeBytes (input : List Element) (go : List Byte → Answer) : Answer :=
  match bytesOf input with
  | some bs => go bs
  | none => .raise .invalid

def takeIndexes (input : List Element) (go : List Index → Answer) : Answer :=
  match indexesOf input with
  | some d => go d
  | none => .raise .invalid

/-- `if cmd.mode = none then raise UNSUPPORTED` (60_exceptions.md R243 (1)). -/
def forTarget (m : Mode) (go : Target → Answer) : Answer :=
  match m with
  | .none => .raise .unsupported
  | .real t => go t

/-- `if not <ok> then raise STRUCTURAL`: a length rule (20_memory.md R49, R50). -/
def lengthRule (ok : Bool) (go : Answer) : Answer :=
  if ok then go else .raise .structural

/-- `if not <ok> then refuse`: a precondition the spec gives no failure for (60_exceptions.md R247). -/
def precondition (ok : Bool) (why : Refusal) (go : Answer) : Answer :=
  if ok then go else .refuse why

/-- The precondition on quantized colors: in range, and for `gb` gray; else `refuse` (93_implementation_defined.md U6,
42_color_normalizer.md R151, 43_color_packer.md R177). Which of the two is named first is log entry 4. -/
def requireQuantized (t : Target) (qs : List Color) (go : Answer) : Answer :=
  precondition (qs.all (inRange t)) .channelOutOfRange (precondition (qs.all (grayInGb t)) .colorNotGray go)

end Sys2Proof.Machine
end

