-- ==== Sys2Proof/Machine/ColorPacker.lean ====
section
/-! DEFINITION. Unit 4, color_packer (43_color_packer.md). -/

namespace Sys2Proof.Machine

/-! ### Two-byte hardware colors -/

/-- The `FAM5` word: `r` in bits [4:0], `g` in [9:5], `b` in [14:10], little-endian (R167). -/
def fiveBitLayout : Layout := ⟨0, 5, 10, .little⟩

/-- The layout of a mode's two-byte color; `gb` has none (R165, R167, R171). -/
def layoutOf (p : Params) : Target → Option Layout
  | .snes => some fiveBitLayout
  | .snesMode7 => some fiveBitLayout
  | .gb => none
  | .gbc => some fiveBitLayout
  | .gba => some fiveBitLayout
  | .gbaAffine => some fiveBitLayout
  | .md => some p.mdLayout
  | .pce => some p.pceLayout
  | .pceSprite => some p.pceLayout

/-- `W = (r << posR) | (g << posG) | (b << posB)`, every other bit zero (R167, R171); alpha is not read (R177). -/
def hardwareWord (L : Layout) (q : Color) : BitVec 16 :=
  (q.r.setWidth 16 <<< L.posR) ||| (q.g.setWidth 16 <<< L.posG) ||| (q.b.setWidth 16 <<< L.posB)

/-- The two bytes of a word in a byte order (20_memory.md R43, R44). -/
def bytesOfWord (order : ByteOrder) (W : BitVec 16) : List Byte :=
  match order with
  | .little => [W.extractLsb' 0 8, W.extractLsb' 8 8]
  | .big => [W.extractLsb' 8 8, W.extractLsb' 0 8]

/-- The word of two bytes in a byte order, `b0` the one at the lower position (R174). -/
def wordOfBytes (order : ByteOrder) (b0 b1 : Byte) : BitVec 16 :=
  match order with
  | .little => b1 ++ b0
  | .big => b0 ++ b1

/-- `bytes2(m, q)` (R168). -/
def bytes2 (L : Layout) (q : Color) : List Byte := bytesOfWord L.order (hardwareWord L q)

/-- A field of `w` bits at a position of a word; bits outside the fields are ignored (R174, R176). -/
def wordField (w pos : Nat) (W : BitVec 16) : Byte :=
  ((W >>> pos) &&& BitVec.ofNat 16 (2 ^ w - 1)).setWidth 8

/-- `color2(m, b0, b1)`: the alpha is `OPAQUE` (R174). -/
def color2 (w : Nat) (L : Layout) (b0 b1 : Byte) : Color :=
  let W := wordOfBytes L.order b0 b1
  ⟨wordField w L.posR W, wordField w L.posG W, wordField w L.posB W, opaqueMarker⟩

/-- `color2` of each pair of bytes; the length is even by R173. -/
def colorsOfPairs (w : Nat) (L : Layout) : List Byte → List Color
  | b0 :: b1 :: rest => color2 w L b0 b1 :: colorsOfPairs w L rest
  | _ => []

/-! ### The `gb` palette byte -/

/-- The complemented 2-bit code of a gray color, from its `r` channel (R169). -/
def gbCode (q : Color) : Byte := (0xFF - q.r) &&& 3

/-- `gb_byte(in)`: four codes at bit offsets 0, 2, 4, 6 (R169). -/
def gbByte (q0 q1 q2 q3 : Color) : Byte :=
  gbCode q0 ||| (gbCode q1 <<< 2) ||| (gbCode q2 <<< 4) ||| (gbCode q3 <<< 6)

/-- The color of the 2-bit code at a bit offset: `L = 3 - code`, gray, opaque (R175). -/
def gbColorAt (B : Byte) (offset : Nat) : Color :=
  let level := 3 - ((B >>> offset) &&& 3)
  ⟨level, level, level, opaqueMarker⟩

/-- `gb_colors(B)` (R175). -/
def gbColors (B : Byte) : List Color :=
  [gbColorAt B 0, gbColorAt B 2, gbColorAt B 4, gbColorAt B 6]

/-! ### The operations -/

/-- The `gb` branch of R166: the count, then the range and gray precondition. -/
def packGb (t : Target) (qs : List Color) : Answer :=
  match qs with
  | [q0, q1, q2, q3] => requireQuantized t qs (respondBytes [gbByte q0 q1 q2 q3])
  | _ => .raise .structural

/-- R166. -/
def packColors (p : Params) (m : Mode) (input : List Element) : Answer :=
  takeColors input fun qs => forTarget m fun t =>
    match layoutOf p t with
    | none => packGb t qs
    | some L => requireQuantized t qs (respondBytes (qs.flatMap (bytes2 L)))

/-- The `gb` branch of R172: exactly one byte (R175). -/
def unpackGb (bs : List Byte) : Answer :=
  match bs with
  | [B] => respondColors (gbColors B)
  | _ => .raise .structural

/-- R172. -/
def unpackColors (p : Params) (m : Mode) (input : List Element) : Answer :=
  takeBytes input fun bs => forTarget m fun t =>
    match layoutOf p t with
    | none => unpackGb bs
    | some L => lengthRule (decide (bs.length % 2 = 0)) (respondColors (colorsOfPairs (channelWidth t) L bs))

/-! ### Meanings -/

def execPackColors (m : Mode) (s : State) : Host.Outcome State Fault Refusal :=
  s.deliver (packColors params m s.input)

def execUnpackColors (m : Mode) (s : State) : Host.Outcome State Fault Refusal :=
  s.deliver (unpackColors params m s.input)

end Sys2Proof.Machine
end

