-- ==== Sys2Proof/Machine/Normalizer.lean ====
section
/-! DEFINITION. Unit 3, color_normalizer (42_color_normalizer.md). -/

namespace Sys2Proof.Machine

/-- `normalize(m, q)`: each channel shifted left by `k(m)`, alpha passed through (R150, R151). With `InRange` no
channel is truncated. -/
def normalize (t : Target) (q : Color) : Color :=
  ⟨q.r <<< channelShift t, q.g <<< channelShift t, q.b <<< channelShift t, q.a⟩

/-- R152, with the refusal of U6 for unequal `gb` channels (R151, 93_implementation_defined.md U6; log entry 19). -/
def normalizeColor (m : Mode) (input : List Element) : Answer :=
  takeColor input fun q => forTarget m fun t => requireQuantized t [q] (respondColors [normalize t q])

/-- R153, with the refusal of U6 for unequal `gb` channels (R151, 93_implementation_defined.md U6; log entry 19). -/
def normalizeColors (m : Mode) (input : List Element) : Answer :=
  takeColors input fun qs => forTarget m fun t => requireQuantized t qs (respondColors (qs.map (normalize t)))

/-! ### Meanings -/

def execNormalizeColor (m : Mode) (s : State) : Host.Outcome State Fault Refusal :=
  s.deliver (normalizeColor m s.input)

def execNormalizeColors (m : Mode) (s : State) : Host.Outcome State Fault Refusal :=
  s.deliver (normalizeColors m s.input)

end Sys2Proof.Machine
end

