-- ==== Sys2Proof/Machine/Quantizer.lean ====
section
/-! DEFINITION. Unit 2, color_quantizer (41_color_quantizer.md). -/

namespace Sys2Proof.Machine

/-- The transparent sentinel `T` (R131). -/
def transparent (p : Params) : Color := ⟨0, 0, 0, p.tAlpha⟩

/-- `S = 299*r + 587*g + 114*b`, 1000 times the document's luma (R136). -/
def lumaSum (r g b : Byte) : Nat := 299 * r.toNat + 587 * g.toNat + 114 * b.toNat

/-- The level of a weighted sum: the inclusive thresholds 64, 128, 192 on the exact luma, or on the luma truncated
to an integer (R136). -/
def levelOfSum (rounding : LumaRounding) (S : Nat) : Byte :=
  match rounding with
  | .exact => if S ≤ 64000 then 0 else if S ≤ 128000 then 1 else if S ≤ 192000 then 2 else 3
  | .floor => if S / 1000 ≤ 64 then 0 else if S / 1000 ≤ 128 then 1 else if S / 1000 ≤ 192 then 2 else 3

/-- `gb_level(r, g, b)` (R136). -/
def gbLevel (p : Params) (r g b : Byte) : Byte := levelOfSum p.lumaRounding (lumaSum r g b)

/-- A gray color of the given level, opaque. -/
def grayColor (level : Byte) : Color := ⟨level, level, level, opaqueMarker⟩

/-- `reduce(m, c)`: the alpha decision first, then the mode's formula (R130, R131, R135). -/
def reduce (p : Params) (t : Target) (c : Color) : Color :=
  if c.a.toNat < 0x80 then transparent p
  else
    match familyOf t with
    | .five => ⟨c.r >>> 3, c.g >>> 3, c.b >>> 3, opaqueMarker⟩
    | .gb => grayColor (gbLevel p c.r c.g c.b)
    | .three => ⟨c.r >>> 5, c.g >>> 5, c.b >>> 5, opaqueMarker⟩

/-- R132. -/
def reduceColor (p : Params) (m : Mode) (input : List Element) : Answer :=
  takeColor input fun c => forTarget m fun t => respondColors [reduce p t c]

/-- R133: same length, same order. -/
def reduceColors (p : Params) (m : Mode) (input : List Element) : Answer :=
  takeColors input fun cs => forTarget m fun t => respondColors (cs.map (reduce p t))

/-- R134: the set of the reductions. -/
def reduceColorsSet (p : Params) (m : Mode) (input : List Element) : Answer :=
  takeColorSet input fun cs => forTarget m fun t => respondSet (cs.map (reduce p t))

/-! ### Meanings -/

def execReduceColor (m : Mode) (s : State) : Host.Outcome State Fault Refusal :=
  s.deliver (reduceColor params m s.input)

def execReduceColors (m : Mode) (s : State) : Host.Outcome State Fault Refusal :=
  s.deliver (reduceColors params m s.input)

def execReduceColorsSet (m : Mode) (s : State) : Host.Outcome State Fault Refusal :=
  s.deliver (reduceColorsSet params m s.input)

end Sys2Proof.Machine
end

