-- ==== Sys2Proof/Machine/Table.lean ====
section
/-! DEFINITION. Unit 1, mode_capability_table (40_mode_capability_table.md). -/

namespace Sys2Proof.Machine

/-- The pseudocode shared by R101 to R111: no input buffer, `none` is `UNSUPPORTED`, else one `WORD` (R100). -/
def query (m : Mode) (f : Target → Nat) (input : List Element) : Answer :=
  takeNothing input (forTarget m fun t => respondWord (BitVec.ofNat 32 (f t)))

/-- A boolean result is the `WORD` 0 or 1 (10_state.md R24). -/
def boolWord (b : Bool) : Nat := if b then 1 else 0

/-- R101. -/
def defaultBppOf (p : Params) : Target → Nat
  | .snes => p.defaultBppSnes
  | .snesMode7 => 8
  | .gb => 2
  | .gbc => 2
  | .gba => p.defaultBppGba
  | .gbaAffine => 8
  | .md => 4
  | .pce => 4
  | .pceSprite => 4

/-- R102. -/
def bppAllowed (bpp : Nat) (t : Target) : Bool := (allowedBpps t).contains bpp

/-- R103. -/
def defaultTileSizeOf : Target → Nat
  | .snes => 8
  | .snesMode7 => 8
  | .gb => 8
  | .gbc => 8
  | .gba => 8
  | .gbaAffine => 8
  | .md => 8
  | .pce => 8
  | .pceSprite => 16

/-- R104; 0 means that no limit applies. -/
def maxTileCountOf (p : Params) : Target → Nat
  | .pceSprite => 0
  | t => p.maxTileCount t

/-- R105, R106. -/
def dimAllowed (v : Nat) (t : Target) : Bool := (allowedDims t).contains v

/-- R107. -/
def flippingAllowed : Target → Bool
  | .snes => true
  | .snesMode7 => false
  | .gb => false
  | .gbc => true
  | .gba => true
  | .gbaAffine => false
  | .md => true
  | .pce => false
  | .pceSprite => false

/-- R108. -/
def defaultMapSizeOf (p : Params) : Target → Nat
  | .snesMode7 => 128
  | t => p.defaultMapSize t

/-- R109. -/
def defaultPaletteCountOf (p : Params) (t : Target) : Nat := p.defaultPaletteCount t

/-- R110. -/
def col0Shared : Target → Bool
  | .snes => true
  | .snesMode7 => true
  | .gb => false
  | .gbc => false
  | .gba => true
  | .gbaAffine => true
  | .md => true
  | .pce => true
  | .pceSprite => true

/-- R111: 1 for every real mode, `gb` and `gbc` included. -/
def col0SharedForSprite : Target → Bool
  | .snes => true
  | .snesMode7 => true
  | .gb => true
  | .gbc => true
  | .gba => true
  | .gbaAffine => true
  | .md => true
  | .pce => true
  | .pceSprite => true

/-! ### Meanings -/

def execDefaultBpp (m : Mode) (s : State) : Host.Outcome State Fault Refusal :=
  s.deliver (query m (defaultBppOf params) s.input)

def execAllowedBpp (m : Mode) (bpp : Nat) (s : State) : Host.Outcome State Fault Refusal :=
  s.deliver (query m (fun t => boolWord (bppAllowed bpp t)) s.input)

def execDefaultTileSize (m : Mode) (s : State) : Host.Outcome State Fault Refusal :=
  s.deliver (query m defaultTileSizeOf s.input)

def execMaxTileCount (m : Mode) (s : State) : Host.Outcome State Fault Refusal :=
  s.deliver (query m (maxTileCountOf params) s.input)

def execTileWidthAllowed (m : Mode) (width : Nat) (s : State) : Host.Outcome State Fault Refusal :=
  s.deliver (query m (fun t => boolWord (dimAllowed width t)) s.input)

def execTileHeightAllowed (m : Mode) (height : Nat) (s : State) : Host.Outcome State Fault Refusal :=
  s.deliver (query m (fun t => boolWord (dimAllowed height t)) s.input)

def execTileFlippingAllowed (m : Mode) (s : State) : Host.Outcome State Fault Refusal :=
  s.deliver (query m (fun t => boolWord (flippingAllowed t)) s.input)

def execDefaultMapSize (m : Mode) (s : State) : Host.Outcome State Fault Refusal :=
  s.deliver (query m (defaultMapSizeOf params) s.input)

def execDefaultPaletteCount (m : Mode) (s : State) : Host.Outcome State Fault Refusal :=
  s.deliver (query m (defaultPaletteCountOf params) s.input)

def execCol0IsShared (m : Mode) (s : State) : Host.Outcome State Fault Refusal :=
  s.deliver (query m (fun t => boolWord (col0Shared t)) s.input)

def execCol0IsSharedForSprite (m : Mode) (s : State) : Host.Outcome State Fault Refusal :=
  s.deliver (query m (fun t => boolWord (col0SharedForSprite t)) s.input)

end Sys2Proof.Machine
end

