-- ==== Sys2Proof/Machine/TilePacker.lean ====
section
/-! DEFINITION. Unit 5, tile_packer (44_tile_packer.md). -/

namespace Sys2Proof.Machine

/-- The four layouts (R200). -/
inductive TileLayout where
  | planar2
  | direct
  | nibble
  | planar1
deriving DecidableEq, Repr

/-- The layout of a mode (R200). -/
def tileLayout : Target → TileLayout
  | .snes => .planar2
  | .snesMode7 => .direct
  | .gb => .planar2
  | .gbc => .planar2
  | .gba => .nibble
  | .gbaAffine => .nibble
  | .md => .nibble
  | .pce => .planar2
  | .pceSprite => .planar1

/-- Bit `k` of element `i` of an array. -/
def bitAt (d : List (BitVec 8)) (i k : Nat) : Bool := (d.getD i 0).getLsbD k

/-! ### `PLANAR2` -/

/-- Byte `n` of `planar2`: block `n / 16`, row `(n mod 16) / 2`, plane `2 * (n / 16) + n mod 2`; the pixel of column
`col` is bit `7 - col` (R204, 20_memory.md R46). -/
def planar2Byte (d : List Index) (n : Nat) : Byte :=
  byteOfBits fun i => bitAt d (8 * (n % 16 / 2) + (7 - i)) (2 * (n / 16) + n % 2)

/-- `planar2(bpp, d)`: `bpp / 2` blocks of 16 bytes (R204). -/
def planar2 (bpp : Nat) (d : List Index) : List Byte :=
  (List.range (8 * bpp)).map (planar2Byte d)

/-- Element `i` of `unplanar2`: bit `k` below `bpp` from byte `16 * (k / 2) + 2 * (i / 8) + k mod 2`, bits `bpp` and
above zero (R212). -/
def unplanar2Index (bpp : Nat) (b : List Byte) (i : Nat) : Index :=
  byteOfBits fun k => decide (k < bpp) && bitAt b (16 * (k / 2) + 2 * (i / 8) + k % 2) (7 - i % 8)

/-- `unplanar2(bpp, b)`, 64 elements (R212). -/
def unplanar2 (bpp : Nat) (b : List Byte) : List Index :=
  (List.range 64).map (unplanar2Index bpp b)

/-! ### `NIBBLE` at 4 bpp -/

/-- `nibbles(d)`: the even pixel in the low nibble, the odd pixel in the high one (R208, 20_memory.md R47). -/
def nibbles : List Index → List Byte
  | even :: odd :: rest => (even ||| (odd <<< 4)) :: nibbles rest
  | _ => []

/-- `unnibbles(b)` (R213). -/
def unnibbles (b : List Byte) : List Index :=
  b.flatMap fun x => [x &&& 0x0F, x >>> 4]

/-! ### `PLANAR1` -/

/-- The place of pixel `t` of eight inside its byte (20_memory.md R48). -/
def spriteBit (order : BitOrder) (t : Nat) : Nat :=
  match order with
  | .msbFirst => 7 - t
  | .lsbFirst => t

/-- `planar1(d)`: with `n = len(d) / 8`, byte `k*n + j` holds bit `k` of the pixels `8*j .. 8*j + 7` (R209). -/
def planar1 (p : Params) (d : List Index) : List Byte :=
  (List.range (4 * (d.length / 8))).map fun x =>
    byteOfBits fun i =>
      bitAt d (8 * (x % (d.length / 8)) + spriteBit p.spriteBitOrder i) (x / (d.length / 8))

/-! ### The operations -/

/-- `PACK_TILE` of a real mode at an allowed depth: the layout's length rule, then the index range, then the bytes
(R201). -/
def packTileAs (p : Params) (layout : TileLayout) (bpp : Nat) (d : List Index) : Answer :=
  match layout with
  | .planar2 =>
    lengthRule (decide (d.length % 8 = 0) && decide (d.length = 64))
      (precondition (indexInRange bpp d) .indexOutOfRange (respondBytes (planar2 bpp d)))
  | .direct => respondBytes d
  | .nibble =>
    if bpp = 8 then respondBytes d
    else
      lengthRule (decide (d.length % 2 = 0))
        (precondition (indexInRange 4 d) .indexOutOfRange (respondBytes (nibbles d)))
  | .planar1 =>
    lengthRule (decide (d.length % 8 = 0))
      (precondition (indexInRange 4 d) .indexOutOfRange (respondBytes (planar1 p d)))

/-- R201. -/
def packTile (p : Params) (m : Mode) (bpp : Nat) (input : List Element) : Answer :=
  takeIndexes input fun d => forTarget m fun t =>
    precondition ((allowedBpps t).contains bpp) .bppNotAllowed (packTileAs p (tileLayout t) bpp d)

/-- `UNPACK_TILE` of a real mode at an allowed depth (R211). `PLANAR1` has no read direction (R214). -/
def unpackTileAs (layout : TileLayout) (bpp : Nat) (b : List Byte) : Answer :=
  match layout with
  | .planar2 => lengthRule (decide (b.length = 8 * bpp)) (respondIndexes (unplanar2 bpp b))
  | .direct => respondIndexes b
  | .nibble => if bpp = 8 then respondIndexes b else respondIndexes (unnibbles b)
  | .planar1 => .raise .unsupported

/-- R211: `pce_sprite` is `UNSUPPORTED` before the bit depth is looked at. -/
def unpackTile (m : Mode) (bpp : Nat) (input : List Element) : Answer :=
  takeBytes input fun b => forTarget m fun t =>
    if t = .pceSprite then .raise .unsupported
    else precondition ((allowedBpps t).contains bpp) .bppNotAllowed (unpackTileAs (tileLayout t) bpp b)

/-! ### Meanings -/

def execPackTile (m : Mode) (bpp : Nat) (s : State) : Host.Outcome State Fault Refusal :=
  s.deliver (packTile params m bpp s.input)

def execUnpackTile (m : Mode) (bpp : Nat) (s : State) : Host.Outcome State Fault Refusal :=
  s.deliver (unpackTile m bpp s.input)

end Sys2Proof.Machine
end

