-- ==== Sys2Proof/Machine/Dispatch.lean ====
section
/-! DEFINITION. Execution of a decoded operation: one arm per constructor, one direct call of its meaning each
(30_encoding.md R77). -/

namespace Sys2Proof.Machine

def exec (i : Instr) (s : State) : Host.Outcome State Fault Refusal :=
  match i with
  | .defaultBpp m => Sys2Proof.Machine.execDefaultBpp m s
  | .allowedBpp m bpp => Sys2Proof.Machine.execAllowedBpp m bpp s
  | .defaultTileSize m => Sys2Proof.Machine.execDefaultTileSize m s
  | .maxTileCount m => Sys2Proof.Machine.execMaxTileCount m s
  | .tileWidthAllowed m width => Sys2Proof.Machine.execTileWidthAllowed m width s
  | .tileHeightAllowed m height => Sys2Proof.Machine.execTileHeightAllowed m height s
  | .tileFlippingAllowed m => Sys2Proof.Machine.execTileFlippingAllowed m s
  | .defaultMapSize m => Sys2Proof.Machine.execDefaultMapSize m s
  | .defaultPaletteCount m => Sys2Proof.Machine.execDefaultPaletteCount m s
  | .col0IsShared m => Sys2Proof.Machine.execCol0IsShared m s
  | .col0IsSharedForSprite m => Sys2Proof.Machine.execCol0IsSharedForSprite m s
  | .reduceColor m => Sys2Proof.Machine.execReduceColor m s
  | .reduceColors m => Sys2Proof.Machine.execReduceColors m s
  | .reduceColorsSet m => Sys2Proof.Machine.execReduceColorsSet m s
  | .normalizeColor m => Sys2Proof.Machine.execNormalizeColor m s
  | .normalizeColors m => Sys2Proof.Machine.execNormalizeColors m s
  | .packColors m => Sys2Proof.Machine.execPackColors m s
  | .unpackColors m => Sys2Proof.Machine.execUnpackColors m s
  | .packTile m bpp => Sys2Proof.Machine.execPackTile m bpp s
  | .unpackTile m bpp => Sys2Proof.Machine.execUnpackTile m bpp s

end Sys2Proof.Machine
end

