-- ==== Sys2Proof/Machine/Step.lean ====
section
/-! DEFINITION. One step: the block takes one request, decodes it and answers it. -/

namespace Sys2Proof.Machine

/-- One step. With a request to answer: decode it (30_encoding.md R76); a rejection is answered `INVALID` (R80), a
decoded operation is executed (R77). With none, the block stays idle, ready for a request (10_state.md R30,
70_reset_and_hazards.md R270; log entry 2). -/
def step (s : State) : Host.Outcome State Fault Refusal :=
  match s.fetch with
  | none => .next s
  | some (req, taken) =>
    match decodeRequest req.cmd req.input with
    | .ok i => exec i taken
    | .reject _ => .next (taken.raise .invalid)

/-- The state in which the next request the block answers carries the given command word, with an input buffer the
operation takes (log entry 2). -/
def State.withFetchWord (s : State) (nbits w : Nat) : State :=
  match s.request with
  | some req => { s with request := some (req.withWord (BitVec.ofNat 32 (tableWord nbits w))) }
  | none =>
    match s.script with
    | [] => { s with script := [Request.withWord ⟨0, []⟩ (BitVec.ofNat 32 (tableWord nbits w))] }
    | req :: rest => { s with script := req.withWord (BitVec.ofNat 32 (tableWord nbits w)) :: rest }

end Sys2Proof.Machine
end

