-- ==== Sys2Proof/Machine/HostScript.lean ====
section
/-! DEFINITION. The host's side: issuing requests one after another (10_state.md R21) and the two pseudo-operations
(30_encoding.md R83), which are host sequences and not operations of the block (log entry 15). -/

namespace Sys2Proof.Machine

/-- The request of an operation with an input buffer. -/
def requestOf (i : Instr) (input : List Element) : Request where
  cmd := encode i
  input := input

/-- The host issues one request ahead of its script, and the block answers it. -/
def issue (req : Request) (s : State) : Host.Outcome State Fault Refusal :=
  step { s with script := req :: s.script }

/-- Issue a second request on the output of the first, if the first answered `OK` with a sequence; if it did not, the
second is not issued and the first response stands (R83). -/
def thenIssue (first : Host.Outcome State Fault Refusal) (second : List Element → Request) :
    Host.Outcome State Fault Refusal :=
  match first with
  | .fault why => .fault why
  | .refused why => .refused why
  | .next t =>
    match t.lastResponse with
    | some ⟨.ok, .seq q⟩ => issue (second q) t
    | _ => .next t

/-- `EXPORT_COLORS m : s` (R83). -/
def exportColors (m : Mode) (input : List Element) (s : State) : Host.Outcome State Fault Refusal :=
  thenIssue (issue (requestOf (.reduceColors m) input) s) (requestOf (.packColors m))

/-- `IMPORT_COLORS m : b` (R83). -/
def importColors (m : Mode) (input : List Element) (s : State) : Host.Outcome State Fault Refusal :=
  thenIssue (issue (requestOf (.unpackColors m) input) s) (requestOf (.normalizeColors m))

end Sys2Proof.Machine
end

