-- ==== Sys2Proof/Safety.lean ====
section
/-! DEFINITION. What a good response and a good state are, and what it is for a run to be free of refusals. -/

namespace Sys2Proof.Machine

/-- The type of an element, by its name (10_state.md R24). -/
inductive ElementType where
  | color
  | byte
  | index
  | word
deriving DecidableEq, Repr

def elementType : Element → ElementType
  | .color _ => .color
  | .byte _ => .byte
  | .index _ => .index
  | .word _ => .word

/-- All elements of a buffer are of one type (10_state.md R23). -/
def homogeneous (elems : List Element) : Bool :=
  match elems with
  | [] => true
  | e :: rest => rest.all fun f => decide (elementType f = elementType e)

/-- A list of colors is strictly ascending by color word: the canonical form of a set (log entry 11). -/
def ascending : List Color → Bool
  | [] => true
  | [_] => true
  | c :: d :: rest => decide ((colorWord c).toNat < (colorWord d).toNat) && ascending (d :: rest)

/-- An output buffer holds elements of one type, or a set in canonical form. -/
def Output.wellFormed : Output → Bool
  | .seq elems => homogeneous elems
  | .set colors => ascending colors

/-- A response is well formed: a failure has an empty output buffer (60_exceptions.md R246), the status is never
`INTERNAL` (R245), and the output buffer is well formed. -/
def Response.wellFormed (r : Response) : Bool :=
  (decide (r.status = .ok) || decide (r.out = .seq []))
    && decide (r.status ≠ .internal)
    && r.out.wellFormed

/-- Between operations no request is in flight (10_state.md R20), and every response delivered is well formed. -/
def State.Inv (s : State) : Prop :=
  s.request = none ∧ ∀ r ∈ s.responses, r.wellFormed = true

/-- `n` steps from `s` meet no refusal: every request met so far has a meaning under the spec
(60_exceptions.md R247). -/
def SafeFor (s : State) (n : Nat) : Prop :=
  ∃ t, Sys2Proof.core.run n s = .next t

end Sys2Proof.Machine
end

