-- ==== Sys2Proof/Certificates/Slice0/Obligations.lean ====
section
/-! DEFINITION. The statements for the provers. A statement whose docstring says 'the spec's decision D<n>' rests on
a choice the spec marks as its own. -/

open Sys2Proof Sys2Proof.Machine

/-- `exec` of an operation answers a next state: the request has ended, the host's script is untouched, and the
response with this status and output is added to the responses delivered. This is completion and frame in one. -/
def Sys2Proof.Machine.Answers (i : Instr) (s : State) (status : Status) (out : Output) : Prop :=
  exec i s = .next ⟨none, s.script, ⟨status, out⟩ :: s.responses⟩

/-- The operation answers `OK` with these elements. -/
def Sys2Proof.Machine.AnswersOk (i : Instr) (s : State) (elems : List Element) : Prop :=
  Answers i s .ok (.seq elems)

/-- The operation answers this failure, with an empty output buffer. -/
def Sys2Proof.Machine.Fails (i : Instr) (s : State) (status : Status) : Prop :=
  Answers i s status (.seq [])

/-! ## Encoding -/

/-- Decode of encode is the identity on every well-formed operation (30_encoding.md sections 1 to 3). -/
def Obligations.DecodeOfEncode : Prop :=
  ∀ i : Instr, i.wellFormed = true → decode (encode i) = .ok i

/-- A word that decodes has one meaning and is its encoding: no bit of a decoded word is dropped
(30_encoding.md sections 1 to 3). -/
def Obligations.EncodeOfDecode : Prop :=
  ∀ (w : CmdWord) (i : Instr), decode w = .ok i → i.wellFormed = true ∧ encode i = w

/-- The example command words of 30_encoding.md section 3. -/
def Obligations.ExampleWordsDecode : Prop :=
  decode 0x10010000 = .ok (.defaultBpp (.real .snes)) ∧
  decode 0x11050008 = .ok (.allowedBpp (.real .gba) 8) ∧
  decode 0x14090010 = .ok (.tileWidthAllowed (.real .pceSprite) 16) ∧
  decode 0x20010000 = .ok (.reduceColor (.real .snes)) ∧
  decode 0x21030000 = .ok (.reduceColors (.real .gb)) ∧
  decode 0x30070000 = .ok (.normalizeColor (.real .md)) ∧
  decode 0x40030000 = .ok (.packColors (.real .gb)) ∧
  decode 0x41080000 = .ok (.unpackColors (.real .pce)) ∧
  decode 0x50010002 = .ok (.packTile (.real .snes) 2) ∧
  decode 0x50090004 = .ok (.packTile (.real .pceSprite) 4) ∧
  decode 0x51020008 = .ok (.unpackTile (.real .snesMode7) 8) ∧
  decode 0x20000000 = .ok (.reduceColor .none)

/-- The command words that spell no operation, by their fields (30_encoding.md section 4; the spec's decisions D2,
D3, D5, D33): `zero` not 0, `op` not one of the 20 codes, `mode` 10 to 15, or `arg` not 0 on an operation that takes
none. -/
def Obligations.RejectedWordsAreTheInvalidOnes : Prop :=
  ∀ w : CmdWord,
    (∃ why, decode w = .reject why) ↔
      (w.toNat / 2 ^ 20 % 16 ≠ 0 ∨
        w.toNat / 2 ^ 24 ∉ [0x10, 0x11, 0x12, 0x13, 0x14, 0x15, 0x16, 0x17, 0x18, 0x19, 0x1A, 0x20, 0x21, 0x22, 0x30,
          0x31, 0x40, 0x41, 0x50, 0x51] ∨
        10 ≤ w.toNat / 2 ^ 16 % 16 ∨
        (w.toNat / 2 ^ 24 ∉ [0x11, 0x14, 0x15, 0x50, 0x51] ∧ w.toNat % 2 ^ 16 ≠ 0))

/-! ## The machine -/

/-- A step runs the decoded operation: with no request in flight the block takes the first request of the script;
a request in flight is the one answered (30_encoding.md section 3). -/
def Obligations.StepExecutesDecodedRequest : Prop :=
  ∀ (req : Request) (i : Instr), decodeRequest req.cmd req.input = .ok i →
    (∀ (rest : List Request) (rs : List Response),
      step ⟨none, req :: rest, rs⟩ = exec i ⟨some req, rest, rs⟩) ∧
    (∀ (script : List Request) (rs : List Response),
      step ⟨some req, script, rs⟩ = exec i ⟨some req, script, rs⟩)

/-- A request that spells no operation is answered `INVALID` with an empty output buffer
(30_encoding.md section 4, 60_exceptions.md section 1; the spec's decisions D5, D33). -/
def Obligations.UndecodedRequestIsInvalid : Prop :=
  ∀ (req : Request) (why : Reject), decodeRequest req.cmd req.input = .reject why →
    (∀ (rest : List Request) (rs : List Response),
      step ⟨none, req :: rest, rs⟩ = .next ⟨none, rest, ⟨.invalid, .seq []⟩ :: rs⟩) ∧
    (∀ (script : List Request) (rs : List Response),
      step ⟨some req, script, rs⟩ = .next ⟨none, script, ⟨.invalid, .seq []⟩ :: rs⟩)

/-- Every operation given a buffer of the wrong shape answers `INVALID`, whatever else holds
(30_encoding.md section 4, 60_exceptions.md section 3; the spec's decisions D24, D33; log entry 13). The shape is
stated here, not taken from the decoder: a query takes nothing, REDUCE_COLOR and NORMALIZE_COLOR one color, a set is
presented without duplicates, the rest take any number of elements of their type. -/
def Obligations.WrongShapeIsInvalid : Prop :=
  ∀ (i : Instr) (s : State),
    (match i with
      | .defaultBpp _ | .allowedBpp _ _ | .defaultTileSize _ | .maxTileCount _ | .tileWidthAllowed _ _
      | .tileHeightAllowed _ _ | .tileFlippingAllowed _ | .defaultMapSize _ | .defaultPaletteCount _
      | .col0IsShared _ | .col0IsSharedForSprite _ => s.input ≠ []
      | .reduceColor _ | .normalizeColor _ => ¬ ∃ c, s.input = [.color c]
      | .reduceColors _ | .normalizeColors _ | .packColors _ => ¬ ∃ cs, s.input = List.map .color cs
      | .reduceColorsSet _ => ¬ ∃ cs, s.input = List.map .color cs ∧ cs.Nodup
      | .unpackColors _ | .unpackTile _ _ => ¬ ∃ bs, s.input = List.map .byte bs
      | .packTile _ _ => ¬ ∃ d, s.input = List.map .index d) →
    Fails i s .invalid

/-- After reset nothing is in flight, and the block is idle until a request comes: a step of an idle block changes
nothing. That the host's script and record are empty then is the model's choice (log entries 1, 2). -/
def Obligations.ResetIsIdle : Prop :=
  State.reset = ⟨none, [], []⟩ ∧ ∀ rs, step ⟨none, [], rs⟩ = .next ⟨none, [], rs⟩

/-- Every step keeps the invariant: no request in flight between operations, every failure with an empty output,
`INTERNAL` never, every output buffer of one element type or a set in canonical form. -/
def Obligations.StepKeepsInvariant : Prop :=
  ∀ s t : State, s.Inv → step s = .next t → t.Inv

/-- The invariant holds after reset (its record of responses is empty by the model's choice, log entry 1). -/
def Obligations.InvariantHoldsAtReset : Prop := State.reset.Inv

/-- A failure gives its status and an empty output, saves nothing and changes nothing else: the block is ready for
the next request exactly as before. -/
def Obligations.FailureReturnsNothing : Prop :=
  ∀ (req : Request) (rest : List Request) (rs : List Response) (t : State),
    step ⟨none, req :: rest, rs⟩ = .next t →
      ∃ r : Response, t = ⟨none, rest, r :: rs⟩ ∧ (r.status ≠ .ok → r.out = .seq [])

/-- No request yields `INTERNAL` (60_exceptions.md section 1; the spec's decisions D19, D22). -/
def Obligations.NoRequestYieldsInternal : Prop :=
  ∀ (s t : State) (r : Response), step s = .next t → t.responses = r :: s.responses → r.status ≠ .internal

/-- Each operation is atomic and pure: the response is a function of the request and the parameters, and of nothing
else. For each request either one response answers it in every state, with an empty output buffer if it is a failure,
or it is refused in every state; nothing else of the state is read or changed. -/
def Obligations.ResponseDependsOnRequestOnly : Prop :=
  ∀ req : Request,
    (∃ r : Response, (r.status ≠ .ok → r.out = .seq []) ∧ ∀ (rest : List Request) (rs : List Response),
      step ⟨none, req :: rest, rs⟩ = .next ⟨none, rest, r :: rs⟩) ∨
    (∃ why : Refusal, ∀ (rest : List Request) (rs : List Response),
      step ⟨none, req :: rest, rs⟩ = .refused why)

/-- Requests commute in every order: if a script is answered to its end, each request has one response of its own, and
every reordering of the script is answered to its end with each request getting that same response, in the order of
issue. -/
def Obligations.RequestsCommuteInEveryOrder : Prop :=
  ∀ (script : List Request) (rs : List Response) (t : State),
    Sys2Proof.core.run script.length ⟨none, script, rs⟩ = .next t →
      ∃ answer : Request → Response,
        t = ⟨none, [], (script.map answer).reverse ++ rs⟩ ∧
        ∀ script' : List Request, script'.Perm script →
          Sys2Proof.core.run script'.length ⟨none, script', rs⟩
            = .next ⟨none, [], (script'.map answer).reverse ++ rs⟩

/-- Placing a command word where the next step takes its request: the step runs the operation the word encodes, with
the buffer that was there if the operation takes it (the model's choice, log entry 2). -/
def Obligations.PlacedWordIsExecuted : Prop :=
  ∀ i : Instr, i.wellFormed = true →
    decodeTableWord 32 (encode i).toNat = some i ∧
    (∀ rs, ∃ input, i.inputShape.accepts input = true ∧
      step (State.withFetchWord ⟨none, [], rs⟩ 32 (encode i).toNat) = exec i ⟨some ⟨encode i, input⟩, [], rs⟩) ∧
    (∀ cmd input rest rs, i.inputShape.accepts input = true →
      step (State.withFetchWord ⟨none, ⟨cmd, input⟩ :: rest, rs⟩ 32 (encode i).toNat)
        = exec i ⟨some ⟨encode i, input⟩, rest, rs⟩)

/-- Mode `none` in any of the 20 operations is `UNSUPPORTED`, whatever the other operands and the elements of the
buffer are (60_exceptions.md sections 1, 3; the spec's decision D11). -/
def Obligations.ModeNoneIsUnsupported : Prop :=
  ∀ (i : Instr) (s : State), i.mode = .none → i.inputShape.accepts s.input = true → Fails i s .unsupported

/-- Every parameter lies in the domain the spec gives it (00_scope.md section 4, 43_color_packer.md section 2). -/
def Obligations.ParametersLieInTheirDomains : Prop := params.Valid

/-! ## Unit 1, mode_capability_table -/

/-- `DEFAULT_BPP` answers the one allowed depth of seven modes, and for `snes` and `gba` one of the allowed depths
(40_mode_capability_table.md section 2; the spec's decision D28). -/
def Obligations.DefaultBppAnswers : Prop :=
  ∃ dS dG : Nat, dS ∈ [2, 4, 8] ∧ dG ∈ [4, 8] ∧
    ∀ (t : Target) (s : State), s.input = [] →
      AnswersOk (.defaultBpp (.real t)) s [.word (BitVec.ofNat 32 (match t with
        | .snes => dS | .snesMode7 => 8 | .gb => 2 | .gbc => 2 | .gba => dG | .gbaAffine => 8 | .md => 4 | .pce => 4
        | .pceSprite => 4))]

/-- `ALLOWED_BPP`: 1 exactly for the legal depths of the mode, `UNSUPPORTED` for `none`; the row is 0x11. -/
def Obligations.AllowedBppAnswers : Prop :=
  (∀ m bpp, opField (encode (.allowedBpp m bpp)) = 0x11) ∧
  ∀ (bpp : Nat) (s : State), s.input = [] →
    Fails (.allowedBpp .none bpp) s .unsupported ∧
    ∀ t : Target, AnswersOk (.allowedBpp (.real t) bpp) s
      [.word (if bpp ∈ (match t with
        | .snes => [2, 4, 8] | .snesMode7 => [8] | .gb => [2] | .gbc => [2] | .gba => [4, 8] | .gbaAffine => [8]
        | .md => [4] | .pce => [4] | .pceSprite => [4]) then 1 else 0)]

/-- `DEFAULT_TILE_SIZE`: 8 for every real mode but `pce_sprite`, 16 there; the row is 0x12. -/
def Obligations.DefaultTileSizeAnswers : Prop :=
  (∀ m, opField (encode (.defaultTileSize m)) = 0x12) ∧
  ∀ s : State, s.input = [] →
    Fails (.defaultTileSize .none) s .unsupported ∧
    ∀ t : Target, AnswersOk (.defaultTileSize (.real t)) s [.word (if t = .pceSprite then 16 else 8)]

/-- The cells the document leaves open, the same in every state: `MAX_TILE_COUNT` answers 0 for `pce_sprite` and one
value of its own for every other real mode; `DEFAULT_MAP_SIZE` 128 for `snes_mode7`, 32 or 0 elsewhere;
`DEFAULT_PALETTE_COUNT` from 1 to 16 (40_mode_capability_table.md section 2; the spec's decision D29, log entry 9). -/
def Obligations.OpenTableCellsAnswer : Prop :=
  ∃ (limit : Target → BitVec 32) (size count : Target → Nat),
    limit .pceSprite = 0 ∧
    size .snesMode7 = 128 ∧ (∀ t, t ≠ .snesMode7 → size t = 32 ∨ size t = 0) ∧
    (∀ t, 1 ≤ count t ∧ count t ≤ 16) ∧
    ∀ (t : Target) (s : State), s.input = [] →
      AnswersOk (.maxTileCount (.real t)) s [.word (limit t)] ∧
      AnswersOk (.defaultMapSize (.real t)) s [.word (BitVec.ofNat 32 (size t))] ∧
      AnswersOk (.defaultPaletteCount (.real t)) s [.word (BitVec.ofNat 32 (count t))]

/-- `TILE_WIDTH_ALLOWED` and `TILE_HEIGHT_ALLOWED`: 1 exactly for 8 or 16 on `snes`, 16 on `pce_sprite`, 8 elsewhere
(40_mode_capability_table.md section 2; the spec's decision D26). -/
def Obligations.TileDimensionAnswers : Prop :=
  ∀ (v : Nat) (t : Target) (s : State), s.input = [] →
    AnswersOk (.tileWidthAllowed (.real t) v) s
      [.word (if v ∈ (match t with | .snes => [8, 16] | .pceSprite => [16] | _ => [8]) then 1 else 0)] ∧
    AnswersOk (.tileHeightAllowed (.real t) v) s
      [.word (if v ∈ (match t with | .snes => [8, 16] | .pceSprite => [16] | _ => [8]) then 1 else 0)]

/-- `TILE_FLIPPING_ALLOWED`: 1 exactly for `snes`, `gbc`, `gba`, `md`; the row is 0x16. -/
def Obligations.TileFlippingAnswers : Prop :=
  (∀ m, opField (encode (.tileFlippingAllowed m)) = 0x16) ∧
  ∀ s : State, s.input = [] →
    Fails (.tileFlippingAllowed .none) s .unsupported ∧
    ∀ t : Target, AnswersOk (.tileFlippingAllowed (.real t)) s
      [.word (if t ∈ [Target.snes, .gbc, .gba, .md] then 1 else 0)]

/-- `COL0_IS_SHARED`: 0 for `gb` and `gbc`, 1 for the other real modes; the row is 0x19. -/
def Obligations.Col0IsSharedAnswers : Prop :=
  (∀ m, opField (encode (.col0IsShared m)) = 0x19) ∧
  ∀ s : State, s.input = [] →
    Fails (.col0IsShared .none) s .unsupported ∧
    ∀ t : Target, AnswersOk (.col0IsShared (.real t)) s [.word (if t ∈ [Target.gb, .gbc] then 0 else 1)]

/-- `COL0_IS_SHARED_FOR_SPRITE`: 1 for every real mode (40_mode_capability_table.md section 2; the spec's decision
D27). -/
def Obligations.Col0IsSharedForSpriteAnswers : Prop :=
  ∀ (t : Target) (s : State), s.input = [] → AnswersOk (.col0IsSharedForSprite (.real t)) s [.word 1]

/-- The table agrees with itself: the default depth is allowed, the default tile size is an allowed width and height,
and every allowed depth is even and at most 8 (40_mode_capability_table.md section 3). -/
def Obligations.TableIsSelfConsistent : Prop :=
  ∀ (t : Target) (s : State), s.input = [] →
    (∃ d : Nat, AnswersOk (.defaultBpp (.real t)) s [.word (BitVec.ofNat 32 d)] ∧ d < 65536 ∧
      AnswersOk (.allowedBpp (.real t) d) s [.word 1]) ∧
    (∃ n : Nat, AnswersOk (.defaultTileSize (.real t)) s [.word (BitVec.ofNat 32 n)] ∧ n < 65536 ∧
      AnswersOk (.tileWidthAllowed (.real t) n) s [.word 1] ∧
      AnswersOk (.tileHeightAllowed (.real t) n) s [.word 1]) ∧
    (∀ d : Nat, AnswersOk (.allowedBpp (.real t) d) s [.word 1] → d % 2 = 0 ∧ d ≤ 8)

/-! ## Unit 2, color_quantizer -/

/-- `reduce(m, c)`: below alpha 0x80 the sentinel, else the mode's formula, for every value of the parameters. -/
def Obligations.ReduceFollowsItsFormula : Prop :=
  ∀ (p : Params) (t : Target) (c : Color),
    (c.a.toNat < 0x80 → reduce p t c = ⟨0, 0, 0, p.tAlpha⟩) ∧
    (0x80 ≤ c.a.toNat →
      (t ∈ [Target.snes, .snesMode7, .gbc, .gba, .gbaAffine] →
        reduce p t c = ⟨BitVec.ofNat 8 (c.r.toNat / 8), BitVec.ofNat 8 (c.g.toNat / 8),
          BitVec.ofNat 8 (c.b.toNat / 8), opaqueMarker⟩) ∧
      (t = .gb →
        reduce p t c = ⟨gbLevel p c.r c.g c.b, gbLevel p c.r c.g c.b, gbLevel p c.r c.g c.b, opaqueMarker⟩) ∧
      (t ∈ [Target.md, .pce, .pceSprite] →
        reduce p t c = ⟨BitVec.ofNat 8 (c.r.toNat / 32), BitVec.ofNat 8 (c.g.toNat / 32),
          BitVec.ofNat 8 (c.b.toNat / 32), opaqueMarker⟩))

/-- `gb_level`: the exact reading compares `S` with 64000, 128000, 192000; outside the ambiguity band every value of
`LUMA_ROUNDING` gives that level (41_color_quantizer.md section 1; the spec's decision D10, log entry 6). -/
def Obligations.GbLevelByThresholds : Prop :=
  ∀ (p : Params) (r g b : Byte) (S : Nat), S = 299 * r.toNat + 587 * g.toNat + 114 * b.toNat →
    S ≤ 255000 ∧
    (p.lumaRounding = .exact ∨
      ¬ (64000 < S ∧ S < 65000 ∨ 128000 < S ∧ S < 129000 ∨ 192000 < S ∧ S < 193000) →
        gbLevel p r g b = (if S ≤ 64000 then 0 else if S ≤ 128000 then 1 else if S ≤ 192000 then 2 else 3)) ∧
    (p.lumaRounding = .floor →
      gbLevel p r g b = (if S < 65000 then 0 else if S < 129000 then 1 else if S < 193000 then 2 else 3))

/-- `REDUCE_COLOR` answers the reduction of its one color (41_color_quantizer.md section 2; the spec's decision D11
for the order of checks does not enter). -/
def Obligations.ReduceColorAnswers : Prop :=
  ∀ (t : Target) (c : Color) (s : State), s.input = [.color c] →
    AnswersOk (.reduceColor (.real t)) s [.color (reduce params t c)]

/-- `REDUCE_COLORS` answers the reductions in order, as many as the input has; `UNSUPPORTED` for `none`, also on the
empty sequence; the row is 0x21. -/
def Obligations.ReduceColorsAnswers : Prop :=
  (∀ m, opField (encode (.reduceColors m)) = 0x21) ∧
  ∀ (cs : List Color) (s : State), s.input = cs.map .color →
    Fails (.reduceColors .none) s .unsupported ∧
    ∀ t : Target, ∃ qs : List Color, AnswersOk (.reduceColors (.real t)) s (qs.map .color) ∧
      qs.length = cs.length ∧
      ∀ n (h : n < qs.length) (h' : n < cs.length), qs[n] = reduce params t cs[n]

/-- `REDUCE_COLORS_SET` answers the set of the reductions: each once, none besides, no more than the input has, and the
same set however the input set is listed. No order is stated (41_color_quantizer.md section 2; the spec's decision
D25, log entry 11). -/
def Obligations.ReduceColorsSetAnswers : Prop :=
  ∀ (t : Target) (cs : List Color) (s : State), s.input = cs.map .color → cs.Nodup →
    ∃ qs : List Color, Answers (.reduceColorsSet (.real t)) s .ok (.set qs) ∧
      (∀ q, q ∈ qs ↔ ∃ c ∈ cs, q = reduce params t c) ∧ qs.Nodup ∧ qs.length ≤ cs.length ∧
      ∀ (ds : List Color) (s' : State), ds.Perm cs → s'.input = ds.map .color →
        Answers (.reduceColorsSet (.real t)) s' .ok (.set qs)

/-- Laws of `reduce`, for every value of the parameters: in range; gray for `gb`; alpha `OPAQUE` when opaque and
`T_ALPHA` when transparent; a transparent color gives one value whatever the mode and the channels
(41_color_quantizer.md section 1; the spec's decisions D7, D8, D9). -/
def Obligations.ReduceStaysInRange : Prop :=
  ∀ (p : Params) (t : Target) (c : Color),
    inRange t (reduce p t c) = true ∧
    isGray (reduce p .gb c) = true ∧
    (reduce p t c).a = (if 0x80 ≤ c.a.toNat then opaqueMarker else p.tAlpha) ∧
    (p.tAlpha = opaqueMarker → representable t (reduce p t c) = true) ∧
    (c.a.toNat < 0x80 → ∀ t' c', c'.a.toNat < 0x80 → reduce p t c = reduce p t' c')

/-! ## Unit 3, color_normalizer -/

/-- `normalize(m, q)` multiplies each channel of an in-range color by `2^k(m)`, without truncation, and passes alpha
through; the largest channel is 0xF8, 0xC0, 0xE0 by family. -/
def Obligations.NormalizeShiftsLeft : Prop :=
  ∀ (t : Target) (q : Color) (k : Nat),
    k = (match t with | .gb => 6 | .md => 5 | .pce => 5 | .pceSprite => 5 | _ => 3) →
    inRange t q = true →
      (normalize t q).r.toNat = q.r.toNat * 2 ^ k ∧ (normalize t q).g.toNat = q.g.toNat * 2 ^ k ∧
      (normalize t q).b.toNat = q.b.toNat * 2 ^ k ∧ (normalize t q).a = q.a ∧
      (normalize t q).r.toNat ≤ 256 - 2 ^ k ∧ (normalize t q).g.toNat ≤ 256 - 2 ^ k ∧
      (normalize t q).b.toNat ≤ 256 - 2 ^ k

/-- `NORMALIZE_COLOR` answers the expansion of its one color and `NORMALIZE_COLORS` the expansions in order; each is
refused when an element is out of range, and in `gb` when one is in range but not gray (42_color_normalizer.md sections
1, 2; the spec's decisions D12, D25; 93_implementation_defined.md U6). That the `gb` refusal of U6 is kept although the
pseudocode of section 2 does not write it is the model's reading (log entry 19); that the range refusal is named first is
its choice (log entry 4). -/
def Obligations.NormalizeAnswers : Prop :=
  (∀ (t : Target) (q : Color) (s : State), s.input = [.color q] →
    (inRange t q = true → (t = .gb → isGray q = true) →
      AnswersOk (.normalizeColor (.real t)) s [.color (normalize t q)]) ∧
    (inRange t q = false → exec (.normalizeColor (.real t)) s = .refused .channelOutOfRange) ∧
    (t = .gb → inRange .gb q = true → isGray q = false →
      exec (.normalizeColor (.real t)) s = .refused .colorNotGray)) ∧
  (∀ (t : Target) (qs : List Color) (s : State), s.input = qs.map .color →
    ((∀ q ∈ qs, inRange t q = true) → (t = .gb → ∀ q ∈ qs, isGray q = true) →
      AnswersOk (.normalizeColors (.real t)) s ((qs.map (normalize t)).map .color)) ∧
    ((∃ q ∈ qs, inRange t q = false) → exec (.normalizeColors (.real t)) s = .refused .channelOutOfRange) ∧
    (t = .gb → (∀ q ∈ qs, inRange .gb q = true) → (∃ q ∈ qs, isGray q = false) →
      exec (.normalizeColors (.real t)) s = .refused .colorNotGray))

/-- Reduce after normalize gives a representable color back, for the five-bit and three-bit families
(42_color_normalizer.md section 3). -/
def Obligations.ReduceUndoesNormalize : Prop :=
  ∀ (p : Params) (t : Target) (q : Color), t ≠ .gb → representable t q = true →
    reduce p t (normalize t q) = q

/-- Normalize after reduce clears the low `k(m)` bits of an opaque color and sets alpha 0xFF; a second pass changes
nothing (42_color_normalizer.md section 3; the spec's decisions D7, D12). -/
def Obligations.NormalizeAfterReduceClearsLowBits : Prop :=
  ∀ (p : Params) (t : Target) (c : Color) (k : Nat), t ≠ .gb → 0x80 ≤ c.a.toNat →
    k = (if t ∈ [Target.md, .pce, .pceSprite] then 5 else 3) →
    normalize t (reduce p t c)
      = ⟨BitVec.ofNat 8 (c.r.toNat - c.r.toNat % 2 ^ k), BitVec.ofNat 8 (c.g.toNat - c.g.toNat % 2 ^ k),
          BitVec.ofNat 8 (c.b.toNat - c.b.toNat % 2 ^ k), 0xFF⟩ ∧
    normalize t (reduce p t (normalize t (reduce p t c))) = normalize t (reduce p t c)

/-- On `gb` each reduce-then-normalize pass lowers a non-zero level by one, for every value of the parameters
(42_color_normalizer.md section 3, 90_conflicts.md C5). -/
def Obligations.GbLevelFallsByOneEachPass : Prop :=
  ∀ (p : Params) (L : Byte), L.toNat ≤ 3 →
    reduce p .gb (normalize .gb (grayColor L)) = grayColor (BitVec.ofNat 8 (L.toNat - 1))

/-! ## Unit 4, color_packer -/

/-- `PACK_COLORS` of the five-bit family: per color the little-endian word `r | g << 5 | b << 10`; alpha is not read;
refused when some color is out of range (43_color_packer.md sections 1 to 3; the spec's decisions D12, D13). -/
def Obligations.PackColorsFiveBit : Prop :=
  ∀ (t : Target) (qs : List Color) (s : State), t ∈ [Target.snes, .snesMode7, .gbc, .gba, .gbaAffine] →
    s.input = qs.map .color →
    ((∀ q ∈ qs, inRange t q = true) →
      AnswersOk (.packColors (.real t)) s (qs.flatMap fun q =>
        [.byte (BitVec.ofNat 8 ((q.r.toNat + q.g.toNat * 32 + q.b.toNat * 1024) % 256)),
         .byte (BitVec.ofNat 8 ((q.r.toNat + q.g.toNat * 32 + q.b.toNat * 1024) / 256))])) ∧
    ((∃ q ∈ qs, inRange t q = false) → exec (.packColors (.real t)) s = .refused .channelOutOfRange)

/-- `PACK_COLORS` of the three-bit family, whatever the open layouts are: per color the word
`r << posR | g << posG | b << posB` in the layout's byte order, with `PCE_LAYOUT` for `pce` and `pce_sprite` alike;
black packs to zero bytes; refused when some color is out of range (43_color_packer.md sections 2, 3; the spec's
decisions D12, D14). -/
def Obligations.PackColorsThreeBit : Prop :=
  ∀ (t : Target) (L : Layout) (qs : List Color) (s : State),
    (t = .md ∧ L = params.mdLayout ∨ t ∈ [Target.pce, .pceSprite] ∧ L = params.pceLayout) →
    s.input = qs.map .color →
    ((∀ q ∈ qs, inRange t q = true) →
      AnswersOk (.packColors (.real t)) s (qs.flatMap fun q =>
        let W := q.r.toNat * 2 ^ L.posR + q.g.toNat * 2 ^ L.posG + q.b.toNat * 2 ^ L.posB
        match L.order with
        | .little => [.byte (BitVec.ofNat 8 (W % 256)), .byte (BitVec.ofNat 8 (W / 256))]
        | .big => [.byte (BitVec.ofNat 8 (W / 256)), .byte (BitVec.ofNat 8 (W % 256))])) ∧
    ((∃ q ∈ qs, inRange t q = false) → exec (.packColors (.real t)) s = .refused .channelOutOfRange)

/-- `PACK_COLORS` with `gb`: four gray levels give one byte of complemented 2-bit codes, color `i` at bits
`[2i+1 : 2i]`; any other count is `STRUCTURAL` whatever the colors are; four colors of which one is out of range or
not gray are refused (43_color_packer.md section 3; the spec's decisions D12, D15, D24). That four colors with one out of
range and another in range but not gray are refused under the name channelOutOfRange is the model's choice of order (log
entry 4): the spec gives the two none. -/
def Obligations.PackColorsGb : Prop :=
  ∀ s : State,
    (∀ l0 l1 l2 l3 a0 a1 a2 a3 : Byte, l0.toNat ≤ 3 → l1.toNat ≤ 3 → l2.toNat ≤ 3 → l3.toNat ≤ 3 →
      s.input = [.color ⟨l0, l0, l0, a0⟩, .color ⟨l1, l1, l1, a1⟩, .color ⟨l2, l2, l2, a2⟩,
        .color ⟨l3, l3, l3, a3⟩] →
      AnswersOk (.packColors (.real .gb)) s
        [.byte (BitVec.ofNat 8 ((3 - l0.toNat) + (3 - l1.toNat) * 4 + (3 - l2.toNat) * 16
          + (3 - l3.toNat) * 64))]) ∧
    (∀ qs : List Color, s.input = qs.map .color → qs.length ≠ 4 → Fails (.packColors (.real .gb)) s .structural) ∧
    (∀ qs : List Color, s.input = qs.map .color → qs.length = 4 → (∃ q ∈ qs, inRange .gb q = false) →
      exec (.packColors (.real .gb)) s = .refused .channelOutOfRange) ∧
    (∀ qs : List Color, s.input = qs.map .color → qs.length = 4 → (∀ q ∈ qs, inRange .gb q = true) →
      (∃ q ∈ qs, isGray q = false) → exec (.packColors (.real .gb)) s = .refused .colorNotGray)

/-- The length rule of `UNPACK_COLORS` in the two-byte modes: an even number of bytes gives half as many colors; an odd
number fails whole, with no color of a complete pair returned. -/
def Obligations.UnpackColorsLengthRule : Prop :=
  ∀ (t : Target) (bs : List Byte) (s : State), t ≠ .gb → s.input = bs.map .byte →
    (bs.length % 2 = 0 →
      ∃ cs : List Color, AnswersOk (.unpackColors (.real t)) s (cs.map .color) ∧ 2 * cs.length = bs.length) ∧
    (bs.length % 2 ≠ 0 → Fails (.unpackColors (.real t)) s .structural)

/-- `UNPACK_COLORS` of the five-bit family: each little-endian pair gives `r` from bits [4:0], `g` from [9:5], `b`
from [14:10] and alpha `OPAQUE`; bit 15 is ignored (43_color_packer.md section 4; the spec's decisions D13, D16,
D18). -/
def Obligations.UnpackColorsFiveBit : Prop :=
  ∀ (t : Target) (pairs : List (Byte × Byte)) (s : State), t ∈ [Target.snes, .snesMode7, .gbc, .gba, .gbaAffine] →
    s.input = pairs.flatMap (fun x => [.byte x.1, .byte x.2]) →
    AnswersOk (.unpackColors (.real t)) s (pairs.map fun x =>
      let W := x.1.toNat + x.2.toNat * 256
      .color ⟨BitVec.ofNat 8 (W % 32), BitVec.ofNat 8 (W / 32 % 32), BitVec.ofNat 8 (W / 1024 % 32), opaqueMarker⟩)

/-- `UNPACK_COLORS` of the three-bit family, whatever the open layouts are: three bits from each position of the word
in the layout's byte order, alpha `OPAQUE`, every other bit ignored (43_color_packer.md section 4; the spec's
decisions D14, D16, D18). -/
def Obligations.UnpackColorsThreeBit : Prop :=
  ∀ (t : Target) (L : Layout) (pairs : List (Byte × Byte)) (s : State),
    (t = .md ∧ L = params.mdLayout ∨ t ∈ [Target.pce, .pceSprite] ∧ L = params.pceLayout) →
    s.input = pairs.flatMap (fun x => [.byte x.1, .byte x.2]) →
    AnswersOk (.unpackColors (.real t)) s (pairs.map fun x =>
      let W := match L.order with
        | .little => x.1.toNat + x.2.toNat * 256
        | .big => x.2.toNat + x.1.toNat * 256
      .color ⟨BitVec.ofNat 8 (W / 2 ^ L.posR % 8), BitVec.ofNat 8 (W / 2 ^ L.posG % 8),
        BitVec.ofNat 8 (W / 2 ^ L.posB % 8), opaqueMarker⟩)

/-- `UNPACK_COLORS` with `gb`: one byte gives four gray opaque colors of levels `3 - code`; any other length is
`STRUCTURAL` (43_color_packer.md section 4; the spec's decisions D16, D17). -/
def Obligations.UnpackColorsGb : Prop :=
  ∀ s : State,
    (∀ B : Byte, s.input = [.byte B] →
      AnswersOk (.unpackColors (.real .gb)) s ([0, 1, 2, 3].map fun i : Nat =>
        let level := BitVec.ofNat 8 (3 - B.toNat / 4 ^ i % 4)
        .color ⟨level, level, level, opaqueMarker⟩)) ∧
    (∀ bs : List Byte, s.input = bs.map .byte → bs.length ≠ 1 → Fails (.unpackColors (.real .gb)) s .structural)

/-- The color round trip: packing representable colors and unpacking the bytes gives the colors back, in every real
mode; for `gb`, four colors at a time (43_color_packer.md section 5). -/
def Obligations.UnpackUndoesPack : Prop :=
  ∀ (t : Target) (qs : List Color) (s : State), s.input = qs.map .color →
    (∀ q ∈ qs, representable t q = true) → (t = .gb → qs.length = 4) →
    ∃ bs : List Byte, AnswersOk (.packColors (.real t)) s (bs.map .byte) ∧
      ∀ s' : State, s'.input = bs.map .byte → AnswersOk (.unpackColors (.real t)) s' (qs.map .color)

/-- The other direction: unpacking bytes whose unused bits are zero and packing the colors gives the bytes back
(43_color_packer.md section 5). The unused bits are stated by the layout: bit 15 for the five-bit family, the bits
outside the three fields for the three-bit one. -/
def Obligations.PackUndoesUnpack : Prop :=
  ∀ (t : Target) (L : Layout) (w : Nat) (pairs : List (Byte × Byte)) (s : State),
    (t ∈ [Target.snes, .snesMode7, .gbc, .gba, .gbaAffine] ∧ L = ⟨0, 5, 10, .little⟩ ∧ w = 5 ∨
      t = .md ∧ L = params.mdLayout ∧ w = 3 ∨ t ∈ [Target.pce, .pceSprite] ∧ L = params.pceLayout ∧ w = 3) →
    s.input = pairs.flatMap (fun x => [.byte x.1, .byte x.2]) →
    (∀ x ∈ pairs, ∀ k < 16,
      (¬ (L.posR ≤ k ∧ k < L.posR + w) ∧ ¬ (L.posG ≤ k ∧ k < L.posG + w) ∧ ¬ (L.posB ≤ k ∧ k < L.posB + w)) →
      (match L.order with
        | .little => x.1.toNat + x.2.toNat * 256
        | .big => x.2.toNat + x.1.toNat * 256).testBit k = false) →
    ∃ qs : List Color, AnswersOk (.unpackColors (.real t)) s (qs.map .color) ∧
      ∀ s' : State, s'.input = qs.map .color → AnswersOk (.packColors (.real t)) s' s.input

/-- `EXPORT_COLORS` and then `IMPORT_COLORS` of its bytes, outside `gb`: opaque colors come back with the low `k(m)`
bits of each channel cleared and alpha 0xFF; four responses are delivered and the host's script is untouched
(30_encoding.md section 5, 42_color_normalizer.md section 3, 43_color_packer.md section 5; the spec's decision
D32). -/
def Obligations.ExportThenImportClearsLowBits : Prop :=
  ∀ (t : Target) (cs : List Color) (k : Nat) (script : List Request) (rs : List Response), t ≠ .gb →
    (∀ c ∈ cs, 0x80 ≤ c.a.toNat) → k = (if t ∈ [Target.md, .pce, .pceSprite] then 5 else 3) →
    ∃ (bs : List Byte) (r0 r1 : Response),
      exportColors (.real t) (cs.map .color) ⟨none, script, rs⟩
        = .next ⟨none, script, ⟨.ok, .seq (bs.map .byte)⟩ :: r0 :: rs⟩ ∧
      importColors (.real t) (bs.map .byte) ⟨none, script, ⟨.ok, .seq (bs.map .byte)⟩ :: r0 :: rs⟩
        = .next ⟨none, script, ⟨.ok, .seq (cs.map fun c => .color
            ⟨BitVec.ofNat 8 (c.r.toNat - c.r.toNat % 2 ^ k), BitVec.ofNat 8 (c.g.toNat - c.g.toNat % 2 ^ k),
              BitVec.ofNat 8 (c.b.toNat - c.b.toNat % 2 ^ k), 0xFF⟩)⟩
          :: r1 :: ⟨.ok, .seq (bs.map .byte)⟩ :: r0 :: rs⟩

/-! ## Unit 5, tile_packer -/

/-- `PACK_TILE` on the 2-bit-plane layout: 64 in-range indexes give `8 * bpp` bytes, and the pixel of row `row` and
column `col` is bit `7 - col` of the row's plane bytes, planes `2p` and `2p+1` interleaved byte by byte in block `p`. -/
def Obligations.PackTilePlanar2Bits : Prop :=
  ∀ (t : Target) (bpp : Nat) (d : List Index) (s : State),
    (t = .snes ∧ bpp ∈ [2, 4, 8] ∨ t ∈ [Target.gb, .gbc] ∧ bpp = 2 ∨ t = .pce ∧ bpp = 4) →
    s.input = d.map .index → d.length = 64 → (∀ x ∈ d, x.toNat < 2 ^ bpp) →
    ∃ out : List Byte, AnswersOk (.packTile (.real t) bpp) s (out.map .byte) ∧ out.length = 8 * bpp ∧
      ∀ p < bpp / 2, ∀ row < 8, ∀ col < 8,
        (out.getD (16 * p + 2 * row) 0).getLsbD (7 - col) = (d.getD (8 * row + col) 0).getLsbD (2 * p) ∧
        (out.getD (16 * p + 2 * row + 1) 0).getLsbD (7 - col) = (d.getD (8 * row + col) 0).getLsbD (2 * p + 1)

/-- `PACK_TILE` on the nibble layout at 4 bpp (`gba`, `md`): an odd number of indexes is `STRUCTURAL`; pairs of
in-range indexes give one byte each, the even pixel in the low nibble. -/
def Obligations.PackTileNibbles : Prop :=
  ∀ (t : Target) (s : State), t ∈ [Target.gba, .md] →
    (∀ d : List Index, s.input = d.map .index → d.length % 2 ≠ 0 → Fails (.packTile (.real t) 4) s .structural) ∧
    (∀ pairs : List (Index × Index), s.input = pairs.flatMap (fun x => [.index x.1, .index x.2]) →
      (∀ x ∈ pairs, x.1.toNat < 16 ∧ x.2.toNat < 16) →
      AnswersOk (.packTile (.real t) 4) s
        (pairs.map fun x => .byte (BitVec.ofNat 8 (x.1.toNat + x.2.toNat * 16))))

/-- `PACK_TILE` on the 1-bit-plane layout (`pce_sprite`, 4 bpp): planes 0 to 3 in order, each `n = len / 8` bytes,
the first pixel of eight in the most significant bit; a length that is no multiple of 8 is `STRUCTURAL`
(44_tile_packer.md section 2, 20_memory.md section 3; the spec's decision D21, log entry 7). -/
def Obligations.PackTilePlanar1Bits : Prop :=
  ∀ (d : List Index) (s : State), s.input = d.map .index →
    (d.length % 8 ≠ 0 → Fails (.packTile (.real .pceSprite) 4) s .structural) ∧
    (d.length % 8 = 0 → (∀ x ∈ d, x.toNat < 16) →
      ∃ out : List Byte, AnswersOk (.packTile (.real .pceSprite) 4) s (out.map .byte) ∧
        out.length = 4 * (d.length / 8) ∧
        ∀ k < 4, ∀ j < d.length / 8, ∀ u < 8,
          (out.getD (k * (d.length / 8) + j) 0).getLsbD (7 - u) = (d.getD (8 * j + u) 0).getLsbD k)

/-- Passthrough: `snes_mode7`, and `gba`, `gba_affine` at 8 bpp, pack and unpack element by element at any length
(44_tile_packer.md sections 2, 3; the spec's decision D34). -/
def Obligations.TilePassthrough : Prop :=
  ∀ (t : Target) (x : List (BitVec 8)) (s : State), t ∈ [Target.snesMode7, .gba, .gbaAffine] →
    (s.input = x.map .index → AnswersOk (.packTile (.real t) 8) s (x.map .byte)) ∧
    (s.input = x.map .byte → AnswersOk (.unpackTile (.real t) 8) s (x.map .index))

/-- The 2-bit-plane length rules, whatever the elements are: `PACK_TILE` takes 64 indexes and `UNPACK_TILE` exactly
`8 * bpp` bytes, else `STRUCTURAL` (44_tile_packer.md sections 2, 3; the spec's decisions D19, D20, D24). -/
def Obligations.Planar2LengthRules : Prop :=
  ∀ (t : Target) (bpp : Nat) (s : State),
    (t = .snes ∧ bpp ∈ [2, 4, 8] ∨ t ∈ [Target.gb, .gbc] ∧ bpp = 2 ∨ t = .pce ∧ bpp = 4) →
    (∀ d : List Index, s.input = d.map .index → d.length ≠ 64 → Fails (.packTile (.real t) bpp) s .structural) ∧
    (∀ b : List Byte, s.input = b.map .byte → b.length ≠ 8 * bpp → Fails (.unpackTile (.real t) bpp) s .structural)

/-- Where the tile operations are refused: a bit depth the mode does not allow, before any length rule; and in
`PACK_TILE` an index of `2^bpp` or more, once the length rule of the layout is met (44_tile_packer.md section 1,
60_exceptions.md section 3; the spec's decisions D22, D23, D24). -/
def Obligations.TileRefusals : Prop :=
  ∀ (t : Target) (bpp : Nat) (s : State),
    (bpp ∉ allowedBpps t →
      (∀ d : List Index, s.input = d.map .index → exec (.packTile (.real t) bpp) s = .refused .bppNotAllowed) ∧
      (∀ b : List Byte, s.input = b.map .byte → t ≠ .pceSprite →
        exec (.unpackTile (.real t) bpp) s = .refused .bppNotAllowed)) ∧
    (bpp ∈ allowedBpps t → ∀ d : List Index, s.input = d.map .index → (∃ x ∈ d, 2 ^ bpp ≤ x.toNat) →
      (match t with
        | .snes | .gb | .gbc | .pce => d.length = 64
        | .gba | .gbaAffine | .md => d.length % 2 = 0
        | .pceSprite => d.length % 8 = 0
        | .snesMode7 => True) →
      exec (.packTile (.real t) bpp) s = .refused .indexOutOfRange)

/-- `UNPACK_TILE` on the 2-bit-plane layout: `8 * bpp` bytes give 64 indexes, each bit from its plane byte, bits `bpp`
and above zero (44_tile_packer.md section 3; the spec's decision D20). -/
def Obligations.UnpackTilePlanar2Bits : Prop :=
  ∀ (t : Target) (bpp : Nat) (b : List Byte) (s : State),
    (t = .snes ∧ bpp ∈ [2, 4, 8] ∨ t ∈ [Target.gb, .gbc] ∧ bpp = 2 ∨ t = .pce ∧ bpp = 4) →
    s.input = b.map .byte → b.length = 8 * bpp →
    ∃ d : List Index, AnswersOk (.unpackTile (.real t) bpp) s (d.map .index) ∧ d.length = 64 ∧
      ∀ row < 8, ∀ col < 8,
        (∀ p < bpp / 2,
          (d.getD (8 * row + col) 0).getLsbD (2 * p) = (b.getD (16 * p + 2 * row) 0).getLsbD (7 - col) ∧
          (d.getD (8 * row + col) 0).getLsbD (2 * p + 1) = (b.getD (16 * p + 2 * row + 1) 0).getLsbD (7 - col)) ∧
        (d.getD (8 * row + col) 0).toNat < 2 ^ bpp

/-- `UNPACK_TILE` on the nibble layout at 4 bpp: each byte gives its low nibble and then its high one, at any length
(44_tile_packer.md section 3; the spec's decision D20). -/
def Obligations.UnpackTileNibbles : Prop :=
  ∀ (t : Target) (b : List Byte) (s : State), t ∈ [Target.gba, .md] → s.input = b.map .byte →
    AnswersOk (.unpackTile (.real t) 4) s (b.flatMap fun x =>
      [.index (BitVec.ofNat 8 (x.toNat % 16)), .index (BitVec.ofNat 8 (x.toNat / 16))])

/-- `UNPACK_TILE` with `pce_sprite` is `UNSUPPORTED` for every depth and every input, the empty one included. -/
def Obligations.UnpackSpriteIsUnsupported : Prop :=
  ∀ (bpp : Nat) (b : List Byte) (s : State), s.input = b.map .byte →
    Fails (.unpackTile (.real .pceSprite) bpp) s .unsupported

/-- The tile round trip: whenever `PACK_TILE` answers `OK`, in every mode but `pce_sprite`, `UNPACK_TILE` of the bytes
gives the indexes back (44_tile_packer.md section 4). -/
def Obligations.UnpackUndoesPackTile : Prop :=
  ∀ (t : Target) (bpp : Nat) (d : List Index) (b : List Byte) (s s' : State), t ≠ .pceSprite →
    s.input = d.map .index → AnswersOk (.packTile (.real t) bpp) s (b.map .byte) →
    s'.input = b.map .byte → AnswersOk (.unpackTile (.real t) bpp) s' (d.map .index)

/-- The converse: whenever `UNPACK_TILE` answers `OK`, `PACK_TILE` of the indexes gives the bytes back
(44_tile_packer.md section 4). -/
def Obligations.PackUndoesUnpackTile : Prop :=
  ∀ (t : Target) (bpp : Nat) (b : List Byte) (d : List Index) (s s' : State),
    s.input = b.map .byte → AnswersOk (.unpackTile (.real t) bpp) s (d.map .index) →
    s'.input = d.map .index → AnswersOk (.packTile (.real t) bpp) s' (b.map .byte)

/-- The output length on `OK` is a function of the input length, the mode and the depth, so it is bounded: 1 word for a
query, `n` for reduction, normalization and passthrough, `2 * n` or 1 for color packing, `n / 2` or `4 * n` for color
unpacking, `8 * bpp`, `n` or `n / 2` for tile packing, 64, `n` or `2 * n` for tile unpacking; a set has at most as many
colors as the input (70_reset_and_hazards.md section 4, 41_color_quantizer.md section 2, 44_tile_packer.md section 2). -/
def Obligations.OutputLengthIsBounded : Prop :=
  (∀ (i : Instr) (s : State) (elems : List Element), AnswersOk i s elems →
    elems.length = (match i with
      | .reduceColor _ | .reduceColors _ | .normalizeColor _ | .normalizeColors _ => s.input.length
      | .packColors (.real .gb) => 1
      | .packColors _ => 2 * s.input.length
      | .unpackColors (.real .gb) => 4 * s.input.length
      | .unpackColors _ => s.input.length / 2
      | .packTile (.real .snes) bpp | .packTile (.real .gb) bpp | .packTile (.real .gbc) bpp
      | .packTile (.real .pce) bpp => 8 * bpp
      | .packTile _ bpp => if bpp = 4 then s.input.length / 2 else s.input.length
      | .unpackTile (.real .snes) _ | .unpackTile (.real .gb) _ | .unpackTile (.real .gbc) _
      | .unpackTile (.real .pce) _ => 64
      | .unpackTile _ bpp => if bpp = 4 then 2 * s.input.length else s.input.length
      | _ => 1)) ∧
  (∀ (m : Mode) (s : State) (qs : List Color), Answers (.reduceColorsSet m) s .ok (.set qs) →
    qs.length ≤ s.input.length)
end

