-- ==== Sys2Proof/Laws/Bits.lean ====
section
/-! SUPPORT. The bits of a byte. -/

namespace Sys2Proof.Machine

theorem getLsbD_byteOfBits (bit : Nat → Bool) (i : Nat) : (byteOfBits bit).getLsbD i = (decide (i < 8) && bit i) := by
  unfold byteOfBits
  rw [BitVec.getLsbD_ofFnLE]
  by_cases h : i < 8 <;> simp [h]

/-- A byte is its eight bits. -/
theorem byte_eq_of_bits {x y : BitVec 8} (h : ∀ i < 8, x.getLsbD i = y.getLsbD i) : x = y :=
  BitVec.eq_of_getLsbD_eq h

theorem byteOfBits_getLsbD (x : BitVec 8) : byteOfBits x.getLsbD = x :=
  byte_eq_of_bits fun i hi => by rw [getLsbD_byteOfBits]; simp only [hi, decide_true, Bool.true_and]

/-- A value is below `2^n` exactly when no bit from `n` up is set. -/
theorem toNat_lt_pow_of_bits {x : BitVec 8} {n : Nat} (h : ∀ i, n ≤ i → i < 8 → x.getLsbD i = false) :
    x.toNat < 2 ^ n := by
  apply Nat.lt_pow_two_of_testBit
  intro i hi
  by_cases h8 : i < 8
  · exact h i hi h8
  · exact Nat.testBit_lt_two_pow (Nat.lt_of_lt_of_le x.isLt (Nat.pow_le_pow_right (by omega) (by omega)))

theorem getLsbD_eq_false_of_lt {x : BitVec 8} {n i : Nat} (h : x.toNat < 2 ^ n) (hi : n ≤ i) :
    x.getLsbD i = false := by
  rw [BitVec.getLsbD, Nat.testBit_lt_two_pow]
  exact Nat.lt_of_lt_of_le h (Nat.pow_le_pow_right (by omega) hi)

end Sys2Proof.Machine
end

