-- ==== Sys2Proof/Laws/Parameters.lean ====
section
/-! SUPPORT. The domains of the open parameters. -/

namespace Sys2Proof.Machine

/-- A layout of the domain of 43_color_packer.md R171, spelled out. -/
theorem layout_valid_iff {L : Layout} :
    L.valid = true ↔ L.posR ≤ 13 ∧ L.posG ≤ 13 ∧ L.posB ≤ 13 ∧
      (L.posR + 3 ≤ L.posG ∨ L.posG + 3 ≤ L.posR) ∧ (L.posR + 3 ≤ L.posB ∨ L.posB + 3 ≤ L.posR) ∧
      (L.posG + 3 ≤ L.posB ∨ L.posB + 3 ≤ L.posG) := by
  simp [Layout.valid, fieldsApart, and_assoc]

/-- Whatever pair it is given, `admissibleLayouts` answers a pair of the domain. -/
theorem admissibleLayouts_mem (raw : Layout × Layout) :
    (admissibleLayouts raw).1.valid = true ∧ (admissibleLayouts raw).2.valid = true ∧
      (admissibleLayouts raw).1.positionsDiffer (admissibleLayouts raw).2 = true := by
  unfold admissibleLayouts
  split
  · next h => simpa [Bool.and_eq_true, and_assoc] using h
  · decide

/-- Every pair of the domain is answered for some raw pair: the open choice is not narrowed. -/
theorem admissibleLayouts_of_mem {L M : Layout} (hL : L.valid = true) (hM : M.valid = true)
    (hd : L.positionsDiffer M = true) : admissibleLayouts (L, M) = (L, M) := by
  simp [admissibleLayouts, hL, hM, hd]

theorem mdLayout_valid : params.mdLayout.valid = true := (admissibleLayouts_mem _).1

theorem pceLayout_valid : params.pceLayout.valid = true := (admissibleLayouts_mem _).2.1

theorem layouts_differ : params.mdLayout.positionsDiffer params.pceLayout = true := (admissibleLayouts_mem _).2.2

theorem defaultBppSnes_mem : defaultBppSnes = 2 ∨ defaultBppSnes = 4 ∨ defaultBppSnes = 8 := by
  unfold defaultBppSnes
  match Config.defaultBppSnesChoice with
  | 0 => simp
  | 1 => simp
  | 2 => simp

theorem defaultBppGba_mem : defaultBppGba = 4 ∨ defaultBppGba = 8 := by
  unfold defaultBppGba
  match Config.defaultBppGbaChoice with
  | 0 => simp
  | 1 => simp

end Sys2Proof.Machine
end

