-- ==== Sys2Proof/Laws/Colors.lean ====
section
/-! SUPPORT. What reduction, normalization and color packing compute, channel by channel. -/

namespace Sys2Proof.Machine

/-! ### Widths -/

theorem width_add_shift (t : Target) : channelWidth t + channelShift t = 8 := by cases t <;> rfl

theorem inRange_iff {t : Target} {q : Color} :
    inRange t q = true ↔
      q.r.toNat < 2 ^ channelWidth t ∧ q.g.toNat < 2 ^ channelWidth t ∧ q.b.toNat < 2 ^ channelWidth t := by
  simp [inRange, and_assoc]

theorem isGray_iff {q : Color} : isGray q = true ↔ q.r = q.g ∧ q.g = q.b := by simp [isGray]

theorem representable_iff {t : Target} {q : Color} :
    representable t q = true ↔ inRange t q = true ∧ q.a = opaqueMarker ∧ grayInGb t q = true := by
  simp [representable, and_assoc]

theorem Color.eq_of_channels {c d : Color} (hr : c.r = d.r) (hg : c.g = d.g) (hb : c.b = d.b) (ha : c.a = d.a) :
    c = d := by
  cases c
  cases d
  simp_all

/-! ### Channels -/

theorem shiftRight_eq_div (x : Byte) (k : Nat) : x >>> k = BitVec.ofNat 8 (x.toNat / 2 ^ k) := by
  apply BitVec.eq_of_toNat_eq
  rw [BitVec.toNat_ushiftRight, Nat.shiftRight_eq_div_pow, BitVec.toNat_ofNat, Nat.mod_eq_of_lt]
  exact Nat.lt_of_le_of_lt (Nat.div_le_self ..) x.isLt

/-- A right shift leaves a channel below the width that remains. -/
theorem shiftRight_lt {w k : Nat} (h : w + k = 8) (x : Byte) : (x >>> k).toNat < 2 ^ w := by
  rw [BitVec.toNat_ushiftRight, Nat.shiftRight_eq_div_pow, Nat.div_lt_iff_lt_mul (Nat.two_pow_pos k),
    ← Nat.pow_add, h]
  exact x.isLt

/-- A channel in range is shifted left without truncation. -/
theorem shiftLeft_toNat {w k : Nat} (h : w + k = 8) {x : Byte} (hx : x.toNat < 2 ^ w) :
    (x <<< k).toNat = x.toNat * 2 ^ k := by
  rw [BitVec.toNat_shiftLeft, Nat.shiftLeft_eq, Nat.mod_eq_of_lt]
  calc x.toNat * 2 ^ k < 2 ^ w * 2 ^ k := Nat.mul_lt_mul_of_pos_right hx (Nat.two_pow_pos k)
    _ = 2 ^ 8 := by rw [← Nat.pow_add, h]

/-- Shifting a channel in range left and right again gives it back. -/
theorem shiftRight_shiftLeft {w k : Nat} (h : w + k = 8) {x : Byte} (hx : x.toNat < 2 ^ w) :
    (x <<< k) >>> k = x := by
  apply BitVec.eq_of_toNat_eq
  rw [BitVec.toNat_ushiftRight, shiftLeft_toNat h hx, Nat.shiftRight_eq_div_pow,
    Nat.mul_div_cancel _ (Nat.two_pow_pos k)]

/-- Shifting a channel right and left again clears its low bits. -/
theorem shiftLeft_shiftRight {w k : Nat} (h : w + k = 8) (x : Byte) :
    (x >>> k) <<< k = BitVec.ofNat 8 (x.toNat - x.toNat % 2 ^ k) := by
  apply BitVec.eq_of_toNat_eq
  have hle : x.toNat - x.toNat % 2 ^ k < 2 ^ 8 := Nat.lt_of_le_of_lt (Nat.sub_le ..) x.isLt
  rw [shiftLeft_toNat h (shiftRight_lt h x), BitVec.toNat_ushiftRight, Nat.shiftRight_eq_div_pow,
    BitVec.toNat_ofNat, Nat.mod_eq_of_lt hle]
  have := Nat.div_add_mod x.toNat (2 ^ k)
  have hc := Nat.mul_comm (2 ^ k) (x.toNat / 2 ^ k)
  omega

/-! ### Reduction -/

theorem reduce_transparent (p : Params) (t : Target) {c : Color} (h : c.a.toNat < 0x80) :
    reduce p t c = transparent p := by simp [reduce, h]

theorem reduce_gb (p : Params) {c : Color} (h : 0x80 ≤ c.a.toNat) :
    reduce p .gb c = grayColor (gbLevel p c.r c.g c.b) := by
  simp [reduce, Nat.not_lt.2 h, familyOf]

/-- Outside `gb`, the reduction of an opaque color shifts each channel right by `k(m)`. -/
theorem reduce_opaque (p : Params) {t : Target} (ht : t ≠ .gb) {c : Color} (h : 0x80 ≤ c.a.toNat) :
    reduce p t c = ⟨c.r >>> channelShift t, c.g >>> channelShift t, c.b >>> channelShift t, opaqueMarker⟩ := by
  unfold reduce
  rw [if_neg (Nat.not_lt.2 h)]
  cases t <;> first | rfl | exact absurd rfl ht

/-- `S` is at most 255000 (00_scope.md R13). -/
theorem lumaSum_le (r g b : Byte) : lumaSum r g b ≤ 255000 := by
  have h1 := r.isLt
  have h2 := g.isLt
  have h3 := b.isLt
  unfold lumaSum
  omega

theorem levelOfSum_le (rounding : LumaRounding) (S : Nat) : (levelOfSum rounding S).toNat ≤ 3 := by
  cases rounding <;> simp only [levelOfSum] <;> (repeat' split) <;> decide

theorem opaqueMarker_toNat : opaqueMarker.toNat = 255 := rfl

/-! ### The word of a two-byte color -/

/-- Three fields of `w` bits lie inside a 16-bit word and apart from each other. -/
def FieldsFit (w : Nat) (L : Layout) : Prop :=
  L.posR + w ≤ 16 ∧ L.posG + w ≤ 16 ∧ L.posB + w ≤ 16 ∧
    (L.posR + w ≤ L.posG ∨ L.posG + w ≤ L.posR) ∧ (L.posR + w ≤ L.posB ∨ L.posB + w ≤ L.posR) ∧
    (L.posG + w ≤ L.posB ∨ L.posB + w ≤ L.posG)

theorem fieldsFit_five : FieldsFit 5 fiveBitLayout := by
  simp [FieldsFit, fiveBitLayout]

theorem fieldsFit_of_valid {L : Layout} (h : L.valid = true) : FieldsFit 3 L := by
  obtain ⟨h1, h2, h3, h4, h5, h6⟩ := layout_valid_iff.1 h
  exact ⟨by omega, by omega, by omega, h4, h5, h6⟩

/-- Every layout the packer uses has its mode's channel width. -/
theorem fieldsFit_layoutOf {t : Target} {L : Layout} (h : layoutOf params t = some L) :
    FieldsFit (channelWidth t) L := by
  cases t <;> simp only [layoutOf, Option.some.injEq, reduceCtorEq] at h <;> subst h
  case md => exact fieldsFit_of_valid mdLayout_valid
  case pce => exact fieldsFit_of_valid pceLayout_valid
  case pceSprite => exact fieldsFit_of_valid pceLayout_valid
  all_goals exact fieldsFit_five

theorem getLsbD_hardwareWord (L : Layout) (q : Color) (k : Nat) :
    (hardwareWord L q).getLsbD k =
      (decide (k < 16) && (decide (L.posR ≤ k) && q.r.getLsbD (k - L.posR) ||
        decide (L.posG ≤ k) && q.g.getLsbD (k - L.posG) || decide (L.posB ≤ k) && q.b.getLsbD (k - L.posB))) := by
  have key : ∀ (x : Byte) (pos : Nat), (x.setWidth 16 <<< pos).getLsbD k
      = (decide (k < 16) && (decide (pos ≤ k) && x.getLsbD (k - pos))) := by
    intro x pos
    rw [BitVec.getLsbD_shiftLeft, BitVec.getLsbD_setWidth]
    by_cases h : k < 16
    · have h' : k - pos < 16 := by omega
      by_cases hp : pos ≤ k
      · simp only [h, h', hp, Nat.not_lt.2 hp, decide_true, decide_false, Bool.not_false, Bool.true_and]
      · simp only [hp, Nat.lt_of_not_le hp, decide_true, decide_false, Bool.not_true, Bool.and_false, Bool.false_and]
    · simp only [h, decide_false, Bool.false_and]
  unfold hardwareWord
  rw [BitVec.getLsbD_or, BitVec.getLsbD_or, key, key, key]
  cases decide (k < 16) <;> simp

theorem getLsbD_wordField {w pos : Nat} (hw : w ≤ 8) (W : BitVec 16) (i : Nat) :
    (wordField w pos W).getLsbD i = (decide (i < w) && W.getLsbD (pos + i)) := by
  unfold wordField
  rw [BitVec.getLsbD_setWidth, BitVec.getLsbD_and, BitVec.getLsbD_ushiftRight, BitVec.getLsbD_ofNat,
    Nat.testBit_two_pow_sub_one]
  by_cases hi : i < w
  · have h8 : i < 8 := by omega
    have h16 : i < 16 := by omega
    simp only [hi, h8, h16, decide_true, Bool.true_and, Bool.and_true]
  · simp only [hi, decide_false, Bool.and_false, Bool.false_and]

theorem width_le (t : Target) : channelWidth t ≤ 8 := by cases t <;> decide

/-- The three fields of the word of an in-range color are its channels. -/
theorem wordFields_hardwareWord {w : Nat} {L : Layout} (hw : w ≤ 8) (hL : FieldsFit w L) {q : Color}
    (hr : q.r.toNat < 2 ^ w) (hg : q.g.toNat < 2 ^ w) (hb : q.b.toNat < 2 ^ w) :
    wordField w L.posR (hardwareWord L q) = q.r ∧ wordField w L.posG (hardwareWord L q) = q.g ∧
      wordField w L.posB (hardwareWord L q) = q.b := by
  obtain ⟨h1, h2, h3, h4, h5, h6⟩ := hL
  -- a bit of one field is no bit of another
  have off : ∀ (x : Byte) (pos k : Nat), x.toNat < 2 ^ w → (k < pos ∨ pos + w ≤ k) →
      (decide (pos ≤ k) && x.getLsbD (k - pos)) = false := by
    intro x pos k hx hk
    by_cases hp : pos ≤ k
    · rw [getLsbD_eq_false_of_lt hx (by omega), Bool.and_false]
    · simp only [hp, decide_false, Bool.false_and]
  refine ⟨?_, ?_, ?_⟩ <;> refine byte_eq_of_bits fun i hi => ?_ <;>
    rw [getLsbD_wordField hw, getLsbD_hardwareWord]
  · by_cases hiw : i < w
    · rw [off q.g L.posG _ hg (by omega), off q.b L.posB _ hb (by omega)]
      simp only [hiw, show L.posR + i < 16 by omega, Nat.le_add_right, Nat.add_sub_cancel_left, decide_true,
        Bool.true_and, Bool.or_false]
    · rw [getLsbD_eq_false_of_lt (i := i) hr (by omega)]
      simp only [hiw, decide_false, Bool.false_and]
  · by_cases hiw : i < w
    · rw [off q.r L.posR _ hr (by omega), off q.b L.posB _ hb (by omega)]
      simp only [hiw, show L.posG + i < 16 by omega, Nat.le_add_right, Nat.add_sub_cancel_left, decide_true,
        Bool.true_and, Bool.or_false, Bool.false_or]
    · rw [getLsbD_eq_false_of_lt (i := i) hg (by omega)]
      simp only [hiw, decide_false, Bool.false_and]
  · by_cases hiw : i < w
    · rw [off q.r L.posR _ hr (by omega), off q.g L.posG _ hg (by omega)]
      simp only [hiw, show L.posB + i < 16 by omega, Nat.le_add_right, Nat.add_sub_cancel_left, decide_true,
        Bool.true_and, Bool.or_false, Bool.false_or]
    · rw [getLsbD_eq_false_of_lt (i := i) hb (by omega)]
      simp only [hiw, decide_false, Bool.false_and]

/-- A word whose unused bits are zero is the word of its three fields. -/
theorem hardwareWord_wordFields {w : Nat} {L : Layout} (hw : w ≤ 8) (hL : FieldsFit w L) {W : BitVec 16} {a : Byte}
    (hu : ∀ k < 16, ¬ (L.posR ≤ k ∧ k < L.posR + w) → ¬ (L.posG ≤ k ∧ k < L.posG + w) →
      ¬ (L.posB ≤ k ∧ k < L.posB + w) → W.getLsbD k = false) :
    hardwareWord L ⟨wordField w L.posR W, wordField w L.posG W, wordField w L.posB W, a⟩ = W := by
  obtain ⟨h1, h2, h3, h4, h5, h6⟩ := hL
  apply BitVec.eq_of_getLsbD_eq
  intro k hk
  rw [getLsbD_hardwareWord]
  simp only [getLsbD_wordField hw, hk, decide_true, Bool.true_and]
  have on : ∀ pos : Nat, pos ≤ k → pos + (k - pos) = k := fun pos h => by omega
  have field : ∀ pos : Nat, (decide (pos ≤ k) && (decide (k - pos < w) && W.getLsbD (pos + (k - pos))))
      = (decide (pos ≤ k ∧ k < pos + w) && W.getLsbD k) := by
    intro pos
    by_cases hp : pos ≤ k
    · rw [on pos hp]
      by_cases hk' : k < pos + w
      · simp only [hp, hk', show k - pos < w by omega, and_self, decide_true, Bool.true_and]
      · simp only [hp, hk', show ¬ k - pos < w by omega, and_false, decide_false, Bool.false_and, Bool.and_false]
    · simp only [hp, false_and, decide_false, Bool.false_and]
  rw [field, field, field]
  cases hW : W.getLsbD k with
  | false => simp
  | true =>
    have : (L.posR ≤ k ∧ k < L.posR + w) ∨ (L.posG ≤ k ∧ k < L.posG + w) ∨ (L.posB ≤ k ∧ k < L.posB + w) := by
      by_contra hc
      simp only [not_or] at hc
      have := hu k hk hc.1 hc.2.1 hc.2.2
      rw [hW] at this
      cases this
    simpa [or_assoc] using this

/-- The word of an in-range color as a sum. -/
theorem hardwareWord_toNat {w : Nat} {L : Layout} (hL : FieldsFit w L) {q : Color}
    (hr : q.r.toNat < 2 ^ w) (hg : q.g.toNat < 2 ^ w) (hb : q.b.toNat < 2 ^ w) :
    (hardwareWord L q).toNat = q.r.toNat * 2 ^ L.posR + q.g.toNat * 2 ^ L.posG + q.b.toNat * 2 ^ L.posB := by
  obtain ⟨h1, h2, h3, h4, h5, h6⟩ := hL
  have bit : ∀ (x : Byte) (pos k : Nat), x.toNat < 2 ^ w → (k < pos ∨ pos + w ≤ k) →
      (x.setWidth 16 <<< pos).getLsbD k = false := by
    intro x pos k hx hk
    rw [BitVec.getLsbD_shiftLeft, BitVec.getLsbD_setWidth]
    by_cases hp : k < pos
    · simp only [hp, decide_true, Bool.not_true, Bool.and_false, Bool.false_and]
    · rw [getLsbD_eq_false_of_lt hx (by omega)]
      simp only [Bool.and_false]
  have field : ∀ (x : Byte) (pos : Nat), x.toNat < 2 ^ w → pos + w ≤ 16 →
      (x.setWidth 16 <<< pos).toNat = x.toNat * 2 ^ pos := by
    intro x pos hx hp
    have hlt : x.toNat * 2 ^ pos < 2 ^ 16 := by
      calc x.toNat * 2 ^ pos < 2 ^ w * 2 ^ pos := Nat.mul_lt_mul_of_pos_right hx (Nat.two_pow_pos pos)
        _ = 2 ^ (w + pos) := (Nat.pow_add ..).symm
        _ ≤ 2 ^ 16 := Nat.pow_le_pow_right (by omega) (by omega)
    have hx16 : x.toNat < 2 ^ 16 := Nat.lt_trans x.isLt (by decide)
    rw [BitVec.toNat_shiftLeft, Nat.shiftLeft_eq, BitVec.toNat_setWidth, Nat.mod_eq_of_lt hx16,
      Nat.mod_eq_of_lt hlt]
  have apart : ∀ (x y : Byte) (p p' : Nat), x.toNat < 2 ^ w → y.toNat < 2 ^ w → (p + w ≤ p' ∨ p' + w ≤ p) →
      x.setWidth 16 <<< p &&& y.setWidth 16 <<< p' = 0#16 := by
    intro x y p p' hx hy hpp
    apply BitVec.eq_of_getLsbD_eq
    intro k hk
    rw [BitVec.getLsbD_and, BitVec.getLsbD_zero]
    by_cases hin : k < p ∨ p + w ≤ k
    · rw [bit x p k hx hin, Bool.false_and]
    · rw [bit y p' k hy (by omega), Bool.and_false]
  have hRG := apart q.r q.g L.posR L.posG hr hg h4
  have hRB := apart q.r q.b L.posR L.posB hr hb h5
  have hGB := apart q.g q.b L.posG L.posB hg hb h6
  have hRGB : (q.r.setWidth 16 <<< L.posR ||| q.g.setWidth 16 <<< L.posG) &&& q.b.setWidth 16 <<< L.posB = 0#16 := by
    apply BitVec.eq_of_getLsbD_eq
    intro k hk
    have e1 := congrArg (fun v => BitVec.getLsbD v k) hRB
    have e2 := congrArg (fun v => BitVec.getLsbD v k) hGB
    simp only [BitVec.getLsbD_and, BitVec.getLsbD_zero] at e1 e2
    rw [BitVec.getLsbD_and, BitVec.getLsbD_or, Bool.and_or_distrib_right, e1, e2, BitVec.getLsbD_zero,
      Bool.or_false]
  unfold hardwareWord
  rw [← BitVec.add_eq_or_of_and_eq_zero _ _ hRGB, BitVec.toNat_add_of_and_eq_zero hRGB,
    ← BitVec.add_eq_or_of_and_eq_zero _ _ hRG, BitVec.toNat_add_of_and_eq_zero hRG,
    field q.r _ hr h1, field q.g _ hg h2, field q.b _ hb h3]

/-! ### Bytes of a word -/

theorem wordOfBytes_bytesOfWord (order : ByteOrder) (W : BitVec 16) :
    ∃ b0 b1, bytesOfWord order W = [b0, b1] ∧ wordOfBytes order b0 b1 = W := by
  have split : W.extractLsb' 8 8 ++ W.extractLsb' 0 8 = W := by
    apply BitVec.eq_of_toNat_eq
    rw [BitVec.toNat_append, ← Nat.shiftLeft_add_eq_or_of_lt (BitVec.isLt _)]
    simp only [BitVec.extractLsb'_toNat, Nat.shiftRight_eq_div_pow, Nat.shiftLeft_eq]
    have := W.isLt
    omega
  cases order with
  | little => exact ⟨_, _, rfl, split⟩
  | big => exact ⟨_, _, rfl, split⟩

theorem bytesOfWord_wordOfBytes (order : ByteOrder) (b0 b1 : Byte) :
    bytesOfWord order (wordOfBytes order b0 b1) = [b0, b1] := by
  have low : ∀ x y : Byte, (x ++ y : BitVec 16).extractLsb' 0 8 = y := by
    intro x y
    apply BitVec.eq_of_toNat_eq
    have h1 := x.isLt
    have h2 := y.isLt
    simp only [BitVec.extractLsb'_toNat, BitVec.toNat_append]
    rw [← Nat.shiftLeft_add_eq_or_of_lt y.isLt]
    simp only [Nat.shiftRight_eq_div_pow, Nat.shiftLeft_eq]
    omega
  have high : ∀ x y : Byte, (x ++ y : BitVec 16).extractLsb' 8 8 = x := by
    intro x y
    apply BitVec.eq_of_toNat_eq
    have h1 := x.isLt
    have h2 := y.isLt
    simp only [BitVec.extractLsb'_toNat, BitVec.toNat_append]
    rw [← Nat.shiftLeft_add_eq_or_of_lt y.isLt]
    simp only [Nat.shiftRight_eq_div_pow, Nat.shiftLeft_eq]
    omega
  cases order <;> simp only [bytesOfWord, wordOfBytes, low, high]

/-- Unpacking the two bytes of an in-range opaque color gives the color back. -/
theorem color2_bytes2 {w : Nat} {L : Layout} (hw : w ≤ 8) (hL : FieldsFit w L) {q : Color}
    (hr : q.r.toNat < 2 ^ w) (hg : q.g.toNat < 2 ^ w) (hb : q.b.toNat < 2 ^ w) (ha : q.a = opaqueMarker) :
    ∃ b0 b1, bytes2 L q = [b0, b1] ∧ color2 w L b0 b1 = q := by
  obtain ⟨b0, b1, hb01, hW⟩ := wordOfBytes_bytesOfWord L.order (hardwareWord L q)
  obtain ⟨e1, e2, e3⟩ := wordFields_hardwareWord hw hL hr hg hb
  refine ⟨b0, b1, hb01, ?_⟩
  unfold color2
  rw [hW]
  simp only [e1, e2, e3, ← ha]

end Sys2Proof.Machine
end

