-- ==== Sys2Proof/Laws/State.lean ====
section
/-! SUPPORT. One lemma per field per update of State, and what the shared operations over State do. -/

namespace Sys2Proof.Machine

/-! ### Fields after an update -/

@[simp] theorem take_request (s : State) (req : Request) : (s.take req).request = some req := rfl
@[simp] theorem take_script (s : State) (req : Request) : (s.take req).script = s.script := rfl
@[simp] theorem take_responses (s : State) (req : Request) : (s.take req).responses = s.responses := rfl
@[simp] theorem take_input (s : State) (req : Request) : (s.take req).input = req.input := rfl

@[simp] theorem respond_request (s : State) (st : Status) (out : Output) : (s.respond st out).request = none := rfl
@[simp] theorem respond_script (s : State) (st : Status) (out : Output) : (s.respond st out).script = s.script := rfl
@[simp] theorem respond_responses (s : State) (st : Status) (out : Output) :
    (s.respond st out).responses = ⟨st, out⟩ :: s.responses := rfl
@[simp] theorem respond_lastResponse (s : State) (st : Status) (out : Output) :
    (s.respond st out).lastResponse = some ⟨st, out⟩ := rfl

@[simp] theorem raise_request (s : State) (kind : Failure) : (s.raise kind).request = none := rfl
@[simp] theorem raise_script (s : State) (kind : Failure) : (s.raise kind).script = s.script := rfl
@[simp] theorem raise_responses (s : State) (kind : Failure) :
    (s.raise kind).responses = ⟨statusOf kind, .seq []⟩ :: s.responses := rfl

@[simp] theorem reset_request : State.reset.request = none := rfl
@[simp] theorem reset_script : State.reset.script = [] := rfl
@[simp] theorem reset_responses : State.reset.responses = [] := rfl

@[simp] theorem input_of_request (req : Request) (script : List Request) (rs : List Response) :
    State.input ⟨some req, script, rs⟩ = req.input := rfl
@[simp] theorem input_of_none (script : List Request) (rs : List Response) : State.input ⟨none, script, rs⟩ = [] := rfl

theorem respond_eq (s : State) (st : Status) (out : Output) :
    s.respond st out = ⟨none, s.script, ⟨st, out⟩ :: s.responses⟩ := rfl

theorem raise_eq (s : State) (kind : Failure) :
    s.raise kind = ⟨none, s.script, ⟨statusOf kind, .seq []⟩ :: s.responses⟩ := rfl

/-! ### Fetching -/

@[simp] theorem fetch_of_script (req : Request) (rest : List Request) (rs : List Response) :
    State.fetch ⟨none, req :: rest, rs⟩ = some (req, ⟨some req, rest, rs⟩) := rfl
@[simp] theorem fetch_of_request (req : Request) (script : List Request) (rs : List Response) :
    State.fetch ⟨some req, script, rs⟩ = some (req, ⟨some req, script, rs⟩) := rfl
@[simp] theorem fetch_idle (rs : List Response) : State.fetch ⟨none, [], rs⟩ = none := rfl

/-! ### Delivering an answer: all a step can do to the state -/

@[simp] theorem deliver_respond (s : State) (out : Output) : s.deliver (.respond out) = .next (s.respond .ok out) := rfl
@[simp] theorem deliver_raise (s : State) (kind : Failure) : s.deliver (.raise kind) = .next (s.raise kind) := rfl
@[simp] theorem deliver_refuse (s : State) (why : Refusal) : s.deliver (.refuse why) = .refused why := rfl

/-- The response an answer is delivered as. -/
def responseOf : Answer → Option Response
  | .respond out => some ⟨.ok, out⟩
  | .raise kind => some ⟨statusOf kind, .seq []⟩
  | .refuse _ => none

/-- Delivery answers a next state exactly when the answer has a response; that response is added, the request ends,
and nothing else changes. -/
theorem deliver_eq_next {s t : State} {a : Answer} :
    s.deliver a = .next t ↔ ∃ r, responseOf a = some r ∧ t = ⟨none, s.script, r :: s.responses⟩ := by
  cases a <;> simp [responseOf, respond_eq, raise_eq, eq_comm]

theorem deliver_eq_refused {s : State} {a : Answer} {why : Refusal} :
    s.deliver a = .refused why ↔ a = .refuse why := by
  cases a <;> simp

/-- A failure has an empty output buffer. -/
theorem out_of_failure {a : Answer} {r : Response} (h : responseOf a = some r) (hr : r.status ≠ .ok) : r.out = .seq [] := by
  cases a with
  | respond out => simp [responseOf] at h; subst h; simp at hr
  | raise kind => simp [responseOf] at h; subst h; rfl
  | refuse why => simp [responseOf] at h

end Sys2Proof.Machine
end

