-- ==== Sys2Proof/Laws/Buffers.lean ====
section
/-! SUPPORT. Buffers read as colors, bytes, indexes, and the operations that take them. -/

namespace Sys2Proof.Machine

@[simp] theorem colorsOf_map (cs : List Color) : colorsOf (cs.map .color) = some cs := by
  induction cs with
  | nil => rfl
  | cons c cs ih => simp [colorsOf, ih]

@[simp] theorem bytesOf_map (bs : List Byte) : bytesOf (bs.map .byte) = some bs := by
  induction bs with
  | nil => rfl
  | cons b bs ih => simp [bytesOf, ih]

@[simp] theorem indexesOf_map (d : List Index) : indexesOf (d.map .index) = some d := by
  induction d with
  | nil => rfl
  | cons x d ih => simp [indexesOf, ih]

@[simp] theorem colorsOf_one (c : Color) : colorsOf [.color c] = some [c] := colorsOf_map [c]

theorem colorsOf_eq_some {input : List Element} {cs : List Color} :
    colorsOf input = some cs ↔ input = cs.map .color := by
  refine ⟨fun h => ?_, fun h => h ▸ colorsOf_map cs⟩
  induction input generalizing cs with
  | nil => simp [colorsOf] at h; simp [← h]
  | cons e rest ih =>
    cases e <;> simp [colorsOf] at h
    obtain ⟨ds, hds, rfl⟩ := h
    simp [ih hds]

theorem bytesOf_eq_some {input : List Element} {bs : List Byte} :
    bytesOf input = some bs ↔ input = bs.map .byte := by
  refine ⟨fun h => ?_, fun h => h ▸ bytesOf_map bs⟩
  induction input generalizing bs with
  | nil => simp [bytesOf] at h; simp [← h]
  | cons e rest ih =>
    cases e <;> simp [bytesOf] at h
    obtain ⟨ds, hds, rfl⟩ := h
    simp [ih hds]

theorem indexesOf_eq_some {input : List Element} {d : List Index} :
    indexesOf input = some d ↔ input = d.map .index := by
  refine ⟨fun h => ?_, fun h => h ▸ indexesOf_map d⟩
  induction input generalizing d with
  | nil => simp [indexesOf] at h; simp [← h]
  | cons e rest ih =>
    cases e <;> simp [indexesOf] at h
    obtain ⟨ds, hds, rfl⟩ := h
    simp [ih hds]

/-! ### Taking an operand: the right shape goes on, every other shape is `INVALID` -/

@[simp] theorem takeNothing_nil (go : Answer) : takeNothing [] go = go := rfl
@[simp] theorem takeColors_map (cs : List Color) (go : List Color → Answer) :
    takeColors (cs.map .color) go = go cs := by simp [takeColors]
@[simp] theorem takeColor_one (c : Color) (go : Color → Answer) : takeColor [.color c] go = go c := by
  simp [takeColor]
@[simp] theorem takeBytes_map (bs : List Byte) (go : List Byte → Answer) :
    takeBytes (bs.map .byte) go = go bs := by simp [takeBytes]
@[simp] theorem takeIndexes_map (d : List Index) (go : List Index → Answer) :
    takeIndexes (d.map .index) go = go d := by simp [takeIndexes]
theorem takeColorSet_map {cs : List Color} (h : cs.Nodup) (go : List Color → Answer) :
    takeColorSet (cs.map .color) go = go cs := by simp [takeColorSet, h]

theorem takeNothing_cases (input : List Element) (go : Answer) :
    (input = [] ∧ takeNothing input go = go) ∨ (input ≠ [] ∧ takeNothing input go = .raise .invalid) := by
  cases input <;> simp [takeNothing]

theorem takeColors_cases (input : List Element) (go : List Color → Answer) :
    (∃ cs, input = cs.map .color ∧ takeColors input go = go cs) ∨
      ((¬ ∃ cs, input = List.map .color cs) ∧ takeColors input go = .raise .invalid) := by
  cases h : colorsOf input with
  | some cs => exact .inl ⟨cs, colorsOf_eq_some.1 h, by simp [takeColors, h]⟩
  | none =>
    refine .inr ⟨?_, by simp [takeColors, h]⟩
    rintro ⟨cs, rfl⟩
    simp at h

theorem takeBytes_cases (input : List Element) (go : List Byte → Answer) :
    (∃ bs, input = bs.map .byte ∧ takeBytes input go = go bs) ∨
      ((¬ ∃ bs, input = List.map .byte bs) ∧ takeBytes input go = .raise .invalid) := by
  cases h : bytesOf input with
  | some bs => exact .inl ⟨bs, bytesOf_eq_some.1 h, by simp [takeBytes, h]⟩
  | none =>
    refine .inr ⟨?_, by simp [takeBytes, h]⟩
    rintro ⟨bs, rfl⟩
    simp at h

theorem takeIndexes_cases (input : List Element) (go : List Index → Answer) :
    (∃ d, input = d.map .index ∧ takeIndexes input go = go d) ∨
      ((¬ ∃ d, input = List.map .index d) ∧ takeIndexes input go = .raise .invalid) := by
  cases h : indexesOf input with
  | some d => exact .inl ⟨d, indexesOf_eq_some.1 h, by simp [takeIndexes, h]⟩
  | none =>
    refine .inr ⟨?_, by simp [takeIndexes, h]⟩
    rintro ⟨d, rfl⟩
    simp at h

theorem takeColor_cases (input : List Element) (go : Color → Answer) :
    (∃ c, input = [.color c] ∧ takeColor input go = go c) ∨
      ((¬ ∃ c, input = [Element.color c]) ∧ takeColor input go = .raise .invalid) := by
  cases h : colorsOf input with
  | none =>
    refine .inr ⟨?_, by simp [takeColor, h]⟩
    rintro ⟨c, rfl⟩
    simp at h
  | some cs =>
    have hin := colorsOf_eq_some.1 h
    match cs, hin with
    | [c], hin => exact .inl ⟨c, hin, by simp [takeColor, h]⟩
    | [], hin => exact .inr ⟨by simp [hin], by simp [takeColor, h]⟩
    | c :: d :: rest, hin => exact .inr ⟨by simp [hin], by simp [takeColor, h]⟩

theorem takeColorSet_cases (input : List Element) (go : List Color → Answer) :
    (∃ cs, input = cs.map .color ∧ cs.Nodup ∧ takeColorSet input go = go cs) ∨
      ((¬ ∃ cs, input = List.map .color cs ∧ cs.Nodup) ∧ takeColorSet input go = .raise .invalid) := by
  cases h : colorsOf input with
  | none =>
    refine .inr ⟨?_, by simp [takeColorSet, h]⟩
    rintro ⟨cs, rfl, -⟩
    simp at h
  | some cs =>
    have hin := colorsOf_eq_some.1 h
    by_cases hn : cs.Nodup
    · exact .inl ⟨cs, hin, hn, by simp [takeColorSet, h, hn]⟩
    · refine .inr ⟨?_, by simp [takeColorSet, h, hn]⟩
      rintro ⟨ds, hds, hn'⟩
      rw [hds, colorsOf_map] at h
      exact hn (Option.some.inj h ▸ hn')

@[simp] theorem forTarget_none (go : Target → Answer) : forTarget .none go = .raise .unsupported := rfl
@[simp] theorem forTarget_real (t : Target) (go : Target → Answer) : forTarget (.real t) go = go t := rfl

@[simp] theorem lengthRule_true (go : Answer) : lengthRule true go = go := rfl
@[simp] theorem lengthRule_false (go : Answer) : lengthRule false go = .raise .structural := rfl
@[simp] theorem precondition_true (why : Refusal) (go : Answer) : precondition true why go = go := rfl
@[simp] theorem precondition_false (why : Refusal) (go : Answer) : precondition false why go = .refuse why := rfl

/-! ### The precondition on quantized colors: all of its outcomes -/

theorem grayInGb_gb (q : Color) : grayInGb .gb q = isGray q := rfl

theorem grayInGb_of_ne {t : Target} (ht : t ≠ .gb) (q : Color) : grayInGb t q = true := by
  cases t <;> first | rfl | exact absurd rfl ht

theorem requireQuantized_ok {t : Target} {qs : List Color} {go : Answer} (hr : ∀ q ∈ qs, inRange t q = true)
    (hg : ∀ q ∈ qs, grayInGb t q = true) : requireQuantized t qs go = go := by
  simp only [requireQuantized, List.all_eq_true.2 hr, List.all_eq_true.2 hg, precondition_true]

theorem requireQuantized_range {t : Target} {qs : List Color} {go : Answer} (h : ∃ q ∈ qs, inRange t q = false) :
    requireQuantized t qs go = .refuse .channelOutOfRange := by
  have : qs.all (inRange t) = false := by simpa using h
  simp only [requireQuantized, this, precondition_false]

theorem requireQuantized_gray {t : Target} {qs : List Color} {go : Answer} (hr : ∀ q ∈ qs, inRange t q = true)
    (h : ∃ q ∈ qs, grayInGb t q = false) : requireQuantized t qs go = .refuse .colorNotGray := by
  have : qs.all (grayInGb t) = false := by simpa using h
  simp only [requireQuantized, List.all_eq_true.2 hr, this, precondition_true, precondition_false]

/-- Outside `gb` only the range counts. -/
theorem requireQuantized_of_ne {t : Target} (ht : t ≠ .gb) (qs : List Color) (go : Answer) :
    requireQuantized t qs go = precondition (qs.all (inRange t)) .channelOutOfRange go := by
  have : qs.all (grayInGb t) = true := List.all_eq_true.2 fun q _ => grayInGb_of_ne ht q
  simp only [requireQuantized, this, precondition_true]

/-- If anything is answered, it is what was to be answered, and every color met the precondition. -/
theorem requireQuantized_respond {t : Target} {qs : List Color} {go : Answer} {out : Output}
    (h : requireQuantized t qs go = .respond out) :
    (∀ q ∈ qs, inRange t q = true ∧ grayInGb t q = true) ∧ go = .respond out := by
  unfold requireQuantized precondition at h
  split at h
  · next hr =>
    split at h
    · next hg => exact ⟨fun q hq => ⟨List.all_eq_true.1 hr q hq, List.all_eq_true.1 hg q hq⟩, h⟩
    · cases h
  · cases h

/-! ### Shapes accepted at decode -/

theorem accepts_nothing {input : List Element} : InputShape.nothing.accepts input = true ↔ input = [] := by
  simp [InputShape.accepts]

theorem accepts_oneColor {input : List Element} :
    InputShape.oneColor.accepts input = true ↔ ∃ c, input = [.color c] := by
  constructor
  · intro h
    simp only [InputShape.accepts] at h
    split at h
    · next c hc => exact ⟨c, colorsOf_eq_some.1 hc⟩
    · simp at h
  · rintro ⟨c, rfl⟩
    simp [InputShape.accepts]

theorem accepts_colors {input : List Element} :
    InputShape.colors.accepts input = true ↔ ∃ cs, input = List.map .color cs := by
  simp [InputShape.accepts, Option.isSome_iff_exists, colorsOf_eq_some]

theorem accepts_bytes {input : List Element} :
    InputShape.bytes.accepts input = true ↔ ∃ bs, input = List.map .byte bs := by
  simp [InputShape.accepts, Option.isSome_iff_exists, bytesOf_eq_some]

theorem accepts_indexes {input : List Element} :
    InputShape.indexes.accepts input = true ↔ ∃ d, input = List.map .index d := by
  simp [InputShape.accepts, Option.isSome_iff_exists, indexesOf_eq_some]

theorem accepts_colorSet {input : List Element} :
    InputShape.colorSet.accepts input = true ↔ ∃ cs, input = List.map .color cs ∧ cs.Nodup := by
  constructor
  · intro h
    simp only [InputShape.accepts] at h
    split at h
    · next cs hc => exact ⟨cs, colorsOf_eq_some.1 hc, by simpa using h⟩
    · simp at h
  · rintro ⟨cs, rfl, hn⟩
    simp [InputShape.accepts, hn]

/-- The least buffer of a shape has the shape. -/
theorem accepts_leastInput (shape : InputShape) : shape.accepts (leastInput shape) = true := by
  cases shape <;> decide

end Sys2Proof.Machine
end

