-- ==== Sys2Proof/Laws/Decode.lean ====
section
/-! SUPPORT. Fields of an encoded word, and decoding by fields. -/

namespace Sys2Proof

@[simp] theorem modeOfCode_codeOfMode (m : Mode) : modeOfCode (codeOfMode m) = some m := by
  cases m with
  | none => rfl
  | real t => cases t <;> rfl

theorem codeOfMode_of_modeOfCode {c : BitVec 4} {m : Mode} (h : modeOfCode c = some m) : codeOfMode m = c := by
  have all : ∀ c : BitVec 4, (modeOfCode c).all (fun m => decide (codeOfMode m = c)) = true := by decide
  simpa [h] using all c

/-- A mode code is assigned exactly below 10. -/
theorem modeOfCode_eq_none {c : BitVec 4} : modeOfCode c = none ↔ 10 ≤ c.toNat := by
  revert c
  decide

/-! ### Fields of a word -/

theorem opField_toNat (w : CmdWord) : (opField w).toNat = w.toNat / 2 ^ 24 := by
  simp only [opField, BitVec.extractLsb'_toNat, Nat.shiftRight_eq_div_pow]
  omega

theorem zeroField_toNat (w : CmdWord) : (zeroField w).toNat = w.toNat / 2 ^ 20 % 16 := by
  simp only [zeroField, BitVec.extractLsb'_toNat, Nat.shiftRight_eq_div_pow]

theorem modeField_toNat (w : CmdWord) : (modeField w).toNat = w.toNat / 2 ^ 16 % 16 := by
  simp only [modeField, BitVec.extractLsb'_toNat, Nat.shiftRight_eq_div_pow]

theorem argField_toNat (w : CmdWord) : (argField w).toNat = w.toNat % 2 ^ 16 := by
  simp only [argField, BitVec.extractLsb'_toNat, Nat.shiftRight_zero]

/-- A word is its four fields. -/
theorem word_of_fields (w : CmdWord) : opField w ++ zeroField w ++ modeField w ++ argField w = w := by
  apply BitVec.eq_of_toNat_eq
  simp only [BitVec.toNat_append, opField_toNat, zeroField_toNat, modeField_toNat, argField_toNat]
  have h := w.isLt
  rw [← Nat.shiftLeft_add_eq_or_of_lt (by omega), ← Nat.shiftLeft_add_eq_or_of_lt (by omega),
    ← Nat.shiftLeft_add_eq_or_of_lt (by omega)]
  simp only [Nat.shiftLeft_eq]
  omega

theorem toNat_of_fields (op : BitVec 8) (z m : BitVec 4) (arg : BitVec 16) :
    (op ++ z ++ m ++ arg).toNat
      = op.toNat * 2 ^ 24 + z.toNat * 2 ^ 20 + m.toNat * 2 ^ 16 + arg.toNat := by
  have h1 := op.isLt
  have h2 := z.isLt
  have h3 := m.isLt
  have h4 := arg.isLt
  simp only [BitVec.toNat_append]
  rw [← Nat.shiftLeft_add_eq_or_of_lt (by omega), ← Nat.shiftLeft_add_eq_or_of_lt (by omega),
    ← Nat.shiftLeft_add_eq_or_of_lt (by omega)]
  simp only [Nat.shiftLeft_eq]
  omega

@[simp] theorem opField_append (op : BitVec 8) (z m : BitVec 4) (arg : BitVec 16) :
    opField (op ++ z ++ m ++ arg) = op := by
  apply BitVec.eq_of_toNat_eq
  rw [opField_toNat, toNat_of_fields]
  omega

@[simp] theorem zeroField_append (op : BitVec 8) (z m : BitVec 4) (arg : BitVec 16) :
    zeroField (op ++ z ++ m ++ arg) = z := by
  apply BitVec.eq_of_toNat_eq
  rw [zeroField_toNat, toNat_of_fields]
  omega

@[simp] theorem modeField_append (op : BitVec 8) (z m : BitVec 4) (arg : BitVec 16) :
    modeField (op ++ z ++ m ++ arg) = m := by
  apply BitVec.eq_of_toNat_eq
  rw [modeField_toNat, toNat_of_fields]
  omega

@[simp] theorem argField_append (op : BitVec 8) (z m : BitVec 4) (arg : BitVec 16) :
    argField (op ++ z ++ m ++ arg) = arg := by
  apply BitVec.eq_of_toNat_eq
  rw [argField_toNat, toNat_of_fields]
  omega

@[simp] theorem opField_encode (i : Instr) : opField (encode i) = i.op := opField_append ..
@[simp] theorem zeroField_encode (i : Instr) : zeroField (encode i) = 0 := zeroField_append ..
@[simp] theorem modeField_encode (i : Instr) : modeField (encode i) = codeOfMode i.mode := modeField_append ..
@[simp] theorem argField_encode (i : Instr) : argField (encode i) = BitVec.ofNat 16 i.arg := argField_append ..

/-! ### Decoding by fields -/

/-- Everything a successful decode says: the fields pass the four steps of R76. -/
theorem decode_eq_ok {w : CmdWord} {i : Instr} :
    decode w = .ok i ↔
      zeroField w = 0 ∧ ∃ form, opForm (opField w) = some form ∧
        ∃ m, modeOfCode (modeField w) = some m ∧ readArg form m (argField w) = .ok i := by
  unfold decode
  by_cases hz : zeroField w = 0
  · rw [if_neg (by simp [hz])]
    cases hf : opForm (opField w) with
    | none => simp
    | some form => cases hm : modeOfCode (modeField w) <;> simp [hz]
  · rw [if_pos hz]
    exact ⟨nofun, fun h => absurd h.1 hz⟩

theorem decodeRequest_eq_ok {w : CmdWord} {input : List Element} {i : Instr} :
    decodeRequest w input = .ok i ↔ decode w = .ok i ∧ i.inputShape.accepts input = true := by
  unfold decodeRequest
  cases decode w with
  | reject why => simp
  | ok j =>
    by_cases h : j.inputShape.accepts input = true
    · simp only [h, if_true, Decoding.ok.injEq]
      exact ⟨fun e => ⟨e, e ▸ h⟩, fun e => e.1⟩
    · simp only [h, Decoding.ok.injEq]
      constructor
      · simp
      · rintro ⟨rfl, h'⟩
        exact absurd h' h

/-- Decoding a well-formed word follows from the row its code selects. -/
theorem decode_encode_of_row {i : Instr} {form : OpForm} (hf : opForm i.op = some form)
    (ha : readArg form i.mode (BitVec.ofNat 16 i.arg) = .ok i) : decode (encode i) = .ok i :=
  decode_eq_ok.2 ⟨by simp, form, by simpa using hf, i.mode, by simp, by simpa using ha⟩

end Sys2Proof
end

