-- ==== Sys2Proof/Laws/Sets.lean ====
section
/-! SUPPORT. Sets of colors in canonical form (log entry 11). -/

namespace Sys2Proof.Machine

/-- The color word decides the color: the placement of 10_state.md R24 loses nothing. -/
theorem colorWord_injective {c d : Color} (h : colorWord c = colorWord d) : c = d := by
  have hn := congrArg BitVec.toNat h
  have key : ∀ e : Color, (colorWord e).toNat
      = e.a.toNat * 2 ^ 24 + e.b.toNat * 2 ^ 16 + e.g.toNat * 2 ^ 8 + e.r.toNat := by
    intro e
    have h1 := e.a.isLt
    have h2 := e.b.isLt
    have h3 := e.g.isLt
    have h4 := e.r.isLt
    simp only [colorWord, BitVec.toNat_append]
    rw [← Nat.shiftLeft_add_eq_or_of_lt (by omega), ← Nat.shiftLeft_add_eq_or_of_lt (by omega),
      ← Nat.shiftLeft_add_eq_or_of_lt (by omega)]
    simp only [Nat.shiftLeft_eq]
    omega
  rw [key, key] at hn
  obtain ⟨r, g, b, a⟩ := c
  obtain ⟨r', g', b', a'⟩ := d
  have hr : r = r' := BitVec.eq_of_toNat_eq (by simp only at hn; omega)
  have hg : g = g' := BitVec.eq_of_toNat_eq (by simp only at hn; omega)
  have hb : b = b' := BitVec.eq_of_toNat_eq (by simp only at hn; omega)
  have ha : a = a' := BitVec.eq_of_toNat_eq (by simp only at hn; omega)
  simp [hr, hg, hb, ha]

theorem mem_insertColor {c q : Color} {l : List Color} : q ∈ insertColor c l ↔ q = c ∨ q ∈ l := by
  induction l with
  | nil => simp [insertColor]
  | cons d rest ih =>
    unfold insertColor
    split
    · simp
    · split
      · next h => subst h; simp
      · simp [ih, or_left_comm]

/-- The canonical list has exactly the listed colors. -/
theorem mem_colorSet {q : Color} {cs : List Color} : q ∈ colorSet cs ↔ q ∈ cs := by
  induction cs with
  | nil => simp [colorSet]
  | cons c cs ih =>
    rw [show colorSet (c :: cs) = insertColor c (colorSet cs) from rfl, mem_insertColor, ih]
    simp

theorem ascending_iff {l : List Color} :
    ascending l = true ↔ l.Pairwise fun c d => (colorWord c).toNat < (colorWord d).toNat := by
  induction l with
  | nil => simp [ascending]
  | cons c rest ih =>
    cases rest with
    | nil => simp [ascending]
    | cons d rest =>
      rw [ascending, Bool.and_eq_true, decide_eq_true_eq, ih, List.pairwise_cons (a := c)]
      constructor
      · rintro ⟨hcd, hrest⟩
        refine ⟨?_, hrest⟩
        intro e he
        rcases List.mem_cons.1 he with rfl | he
        · exact hcd
        · exact hcd.trans ((List.pairwise_cons.1 hrest).1 e he)
      · rintro ⟨hc, hrest⟩
        exact ⟨hc d (by simp), hrest⟩

theorem pairwise_insertColor {c : Color} {l : List Color}
    (h : l.Pairwise fun c d => (colorWord c).toNat < (colorWord d).toNat) :
    (insertColor c l).Pairwise fun c d => (colorWord c).toNat < (colorWord d).toNat := by
  induction l with
  | nil => simp [insertColor]
  | cons d rest ih =>
    unfold insertColor
    have hd := (List.pairwise_cons.1 h).1
    split
    · next hlt =>
      refine List.pairwise_cons.2 ⟨?_, h⟩
      intro e he
      rcases List.mem_cons.1 he with rfl | he
      · exact hlt
      · exact hlt.trans (hd e he)
    · next hge =>
      split
      · exact h
      · next hne =>
        refine List.pairwise_cons.2 ⟨?_, ih (List.pairwise_cons.1 h).2⟩
        intro e he
        rcases mem_insertColor.1 he with rfl | he
        · have : (colorWord e).toNat ≠ (colorWord d).toNat := fun heq =>
            hne (colorWord_injective (BitVec.eq_of_toNat_eq heq))
          omega
        · exact hd e he

/-- The canonical list is strictly ascending. -/
theorem pairwise_colorSet (cs : List Color) :
    (colorSet cs).Pairwise fun c d => (colorWord c).toNat < (colorWord d).toNat := by
  induction cs with
  | nil => simp [colorSet]
  | cons c cs ih => exact pairwise_insertColor ih

theorem ascending_colorSet (cs : List Color) : ascending (colorSet cs) = true :=
  ascending_iff.2 (pairwise_colorSet cs)

theorem nodup_colorSet (cs : List Color) : (colorSet cs).Nodup :=
  (pairwise_colorSet cs).imp fun h heq => by rw [heq] at h; omega

theorem length_insertColor_le (c : Color) (l : List Color) : (insertColor c l).length ≤ l.length + 1 := by
  induction l with
  | nil => simp [insertColor]
  | cons d rest ih =>
    unfold insertColor
    split
    · simp
    · split
      · simp
      · simpa using ih

theorem length_colorSet_le (cs : List Color) : (colorSet cs).length ≤ cs.length := by
  induction cs with
  | nil => simp [colorSet]
  | cons c cs ih => exact (length_insertColor_le c (colorSet cs)).trans (by simpa using ih)

/-- Equal sets are equal lists: the listing of the input carries nothing. -/
theorem colorSet_eq_of_mem_iff {cs ds : List Color} (h : ∀ q, q ∈ cs ↔ q ∈ ds) : colorSet cs = colorSet ds := by
  apply List.Perm.eq_of_pairwise (le := fun c d => (colorWord c).toNat < (colorWord d).toNat)
  · intro a b _ _ hab hba
    omega
  · exact pairwise_colorSet cs
  · exact pairwise_colorSet ds
  · exact (List.perm_ext_iff_of_nodup (nodup_colorSet cs) (nodup_colorSet ds)).2 fun q => by
      rw [mem_colorSet, mem_colorSet, h]

end Sys2Proof.Machine
end

