-- ==== Sys2Proof/Laws/Exec.lean ====
section
/-! SUPPORT. Said once: every operation delivers an answer that is a function of its operands and the input buffer
alone; what that answer can be; and what a step does with it. -/

namespace Sys2Proof.Machine

/-- The answer of an operation to an input buffer. -/
def answerOf (i : Instr) (input : List Element) : Answer :=
  match i with
  | .defaultBpp m => query m (defaultBppOf params) input
  | .allowedBpp m bpp => query m (fun t => boolWord (bppAllowed bpp t)) input
  | .defaultTileSize m => query m defaultTileSizeOf input
  | .maxTileCount m => query m (maxTileCountOf params) input
  | .tileWidthAllowed m width => query m (fun t => boolWord (dimAllowed width t)) input
  | .tileHeightAllowed m height => query m (fun t => boolWord (dimAllowed height t)) input
  | .tileFlippingAllowed m => query m (fun t => boolWord (flippingAllowed t)) input
  | .defaultMapSize m => query m (defaultMapSizeOf params) input
  | .defaultPaletteCount m => query m (defaultPaletteCountOf params) input
  | .col0IsShared m => query m (fun t => boolWord (col0Shared t)) input
  | .col0IsSharedForSprite m => query m (fun t => boolWord (col0SharedForSprite t)) input
  | .reduceColor m => reduceColor params m input
  | .reduceColors m => reduceColors params m input
  | .reduceColorsSet m => reduceColorsSet params m input
  | .normalizeColor m => normalizeColor m input
  | .normalizeColors m => normalizeColors m input
  | .packColors m => packColors params m input
  | .unpackColors m => unpackColors params m input
  | .packTile m bpp => packTile params m bpp input
  | .unpackTile m bpp => unpackTile m bpp input

theorem exec_eq_deliver (i : Instr) (s : State) : exec i s = s.deliver (answerOf i s.input) := by
  cases i <;> rfl

theorem exec_eq_next {i : Instr} {s t : State} :
    exec i s = .next t ↔
      ∃ r, responseOf (answerOf i s.input) = some r ∧ t = ⟨none, s.script, r :: s.responses⟩ := by
  rw [exec_eq_deliver, deliver_eq_next]

theorem exec_eq_refused {i : Instr} {s : State} {why : Refusal} :
    exec i s = .refused why ↔ answerOf i s.input = .refuse why := by
  rw [exec_eq_deliver, deliver_eq_refused]

/-! ### The answer of a whole request -/

/-- The answer to a request: `INVALID` where it does not decode. -/
def answerTo (req : Request) : Answer :=
  match decodeRequest req.cmd req.input with
  | .ok i => answerOf i req.input
  | .reject _ => .raise .invalid

/-- A step delivers the answer to the request it takes. -/
theorem step_of_script (req : Request) (rest : List Request) (rs : List Response) :
    step ⟨none, req :: rest, rs⟩ = State.deliver ⟨some req, rest, rs⟩ (answerTo req) := by
  unfold step answerTo
  simp only [fetch_of_script]
  cases decodeRequest req.cmd req.input with
  | ok i => simp [exec_eq_deliver]
  | reject why => rfl

theorem step_of_request (req : Request) (script : List Request) (rs : List Response) :
    step ⟨some req, script, rs⟩ = State.deliver ⟨some req, script, rs⟩ (answerTo req) := by
  unfold step answerTo
  simp only [fetch_of_request]
  cases decodeRequest req.cmd req.input with
  | ok i => simp [exec_eq_deliver]
  | reject why => rfl

theorem step_idle (rs : List Response) : step ⟨none, [], rs⟩ = .next ⟨none, [], rs⟩ := rfl

/-- All a step can do: stay idle, or deliver the answer to one request. -/
theorem step_cases (s : State) :
    (s.request = none ∧ s.script = [] ∧ step s = .next s) ∨
      ∃ (req : Request) (taken : State), taken.responses = s.responses ∧ step s = taken.deliver (answerTo req) := by
  obtain ⟨request, script, rs⟩ := s
  cases request with
  | some req => exact .inr ⟨req, _, rfl, step_of_request req script rs⟩
  | none =>
    cases script with
    | nil => exact .inl ⟨rfl, rfl, step_idle rs⟩
    | cons req rest => exact .inr ⟨req, ⟨some req, rest, rs⟩, rfl, step_of_script req rest rs⟩

/-! ### What an answer can be -/

/-- An answer is good: its output buffer is well formed, and it is no internal failure. -/
def Answer.good : Answer → Bool
  | .respond out => out.wellFormed
  | .raise kind => decide (kind ≠ .internal)
  | .refuse _ => true

theorem wellFormed_of_good {a : Answer} {r : Response} (ha : a.good = true) (h : responseOf a = some r) :
    r.wellFormed = true := by
  cases a with
  | respond out =>
    simp only [responseOf, Option.some.injEq] at h
    subst h
    simpa [Response.wellFormed, Answer.good] using ha
  | raise kind =>
    simp only [responseOf, Option.some.injEq] at h
    subst h
    cases kind <;> first | rfl | exact absurd ha (by decide)
  | refuse why => simp [responseOf] at h

theorem homogeneous_map {α : Type} (f : α → Element) (ty : ElementType) (h : ∀ x, elementType (f x) = ty)
    (l : List α) : homogeneous (l.map f) = true := by
  cases l with
  | nil => rfl
  | cons x l => simp [homogeneous, h]

@[simp] theorem good_respondWord (w : Word) : (respondWord w).good = true := rfl
@[simp] theorem good_respondColors (cs : List Color) : (respondColors cs).good = true :=
  homogeneous_map _ .color (fun _ => rfl) cs
@[simp] theorem good_respondBytes (bs : List Byte) : (respondBytes bs).good = true :=
  homogeneous_map _ .byte (fun _ => rfl) bs
@[simp] theorem good_respondIndexes (d : List Index) : (respondIndexes d).good = true :=
  homogeneous_map _ .index (fun _ => rfl) d
@[simp] theorem good_respondSet (cs : List Color) : (respondSet cs).good = true := ascending_colorSet cs
@[simp] theorem good_refuse (why : Refusal) : (Answer.refuse why).good = true := rfl
@[simp] theorem good_structural : (Answer.raise .structural).good = true := rfl
@[simp] theorem good_unsupported : (Answer.raise .unsupported).good = true := rfl
@[simp] theorem good_invalid : (Answer.raise .invalid).good = true := rfl

theorem good_forTarget {m : Mode} {go : Target → Answer} (h : ∀ t, (go t).good = true) :
    (forTarget m go).good = true := by
  cases m with
  | none => rfl
  | real t => exact h t

theorem good_lengthRule {ok : Bool} {go : Answer} (h : go.good = true) : (lengthRule ok go).good = true := by
  cases ok <;> simp [h]

theorem good_precondition {ok : Bool} {why : Refusal} {go : Answer} (h : go.good = true) :
    (precondition ok why go).good = true := by
  cases ok <;> simp [h]

theorem good_requireQuantized {t : Target} {qs : List Color} {go : Answer} (h : go.good = true) :
    (requireQuantized t qs go).good = true := good_precondition (good_precondition h)

theorem good_takeNothing {input : List Element} {go : Answer} (h : go.good = true) :
    (takeNothing input go).good = true := by
  cases input <;> simp [takeNothing, h]

theorem good_takeColors {input : List Element} {go : List Color → Answer} (h : ∀ cs, (go cs).good = true) :
    (takeColors input go).good = true := by
  unfold takeColors
  split <;> simp [h]

theorem good_takeColor {input : List Element} {go : Color → Answer} (h : ∀ c, (go c).good = true) :
    (takeColor input go).good = true := by
  unfold takeColor
  split <;> simp [h]

theorem good_takeColorSet {input : List Element} {go : List Color → Answer} (h : ∀ cs, (go cs).good = true) :
    (takeColorSet input go).good = true := by
  unfold takeColorSet
  split
  · split <;> simp [h]
  · rfl

theorem good_takeBytes {input : List Element} {go : List Byte → Answer} (h : ∀ bs, (go bs).good = true) :
    (takeBytes input go).good = true := by
  unfold takeBytes
  split <;> simp [h]

theorem good_takeIndexes {input : List Element} {go : List Index → Answer} (h : ∀ d, (go d).good = true) :
    (takeIndexes input go).good = true := by
  unfold takeIndexes
  split <;> simp [h]

theorem good_query (m : Mode) (f : Target → Nat) (input : List Element) : (query m f input).good = true :=
  good_takeNothing (good_forTarget fun _ => good_respondWord _)

theorem good_packGb (t : Target) (qs : List Color) : (packGb t qs).good = true := by
  unfold packGb
  split
  · exact good_requireQuantized (good_respondBytes _)
  · rfl

theorem good_unpackGb (bs : List Byte) : (unpackGb bs).good = true := by
  unfold unpackGb
  split <;> simp

theorem good_packTileAs (p : Params) (layout : TileLayout) (bpp : Nat) (d : List Index) :
    (packTileAs p layout bpp d).good = true := by
  cases layout with
  | planar2 => exact good_lengthRule (good_precondition (good_respondBytes _))
  | direct => exact good_respondBytes d
  | nibble =>
    simp only [packTileAs]
    split
    · exact good_respondBytes d
    · exact good_lengthRule (good_precondition (good_respondBytes _))
  | planar1 => exact good_lengthRule (good_precondition (good_respondBytes _))

theorem good_unpackTileAs (layout : TileLayout) (bpp : Nat) (b : List Byte) :
    (unpackTileAs layout bpp b).good = true := by
  cases layout with
  | planar2 => exact good_lengthRule (good_respondIndexes _)
  | direct => exact good_respondIndexes b
  | nibble =>
    simp only [unpackTileAs]
    split <;> exact good_respondIndexes _
  | planar1 => rfl

/-- Every operation's answer is good, on every input buffer. -/
theorem good_answerOf (i : Instr) (input : List Element) : (answerOf i input).good = true := by
  cases i with
  | reduceColor m => exact good_takeColor fun _ => good_forTarget fun _ => good_respondColors _
  | reduceColors m => exact good_takeColors fun _ => good_forTarget fun _ => good_respondColors _
  | reduceColorsSet m => exact good_takeColorSet fun _ => good_forTarget fun _ => good_respondSet _
  | normalizeColor m =>
    exact good_takeColor fun _ => good_forTarget fun _ => good_requireQuantized (good_respondColors _)
  | normalizeColors m =>
    exact good_takeColors fun _ => good_forTarget fun _ => good_requireQuantized (good_respondColors _)
  | packColors m =>
    refine good_takeColors fun qs => good_forTarget fun t => ?_
    split
    · exact good_packGb t qs
    · exact good_requireQuantized (good_respondBytes _)
  | unpackColors m =>
    refine good_takeBytes fun bs => good_forTarget fun t => ?_
    split
    · exact good_unpackGb bs
    · exact good_lengthRule (good_respondColors _)
  | packTile m bpp =>
    exact good_takeIndexes fun d => good_forTarget fun t => good_precondition (good_packTileAs params _ bpp d)
  | unpackTile m bpp =>
    refine good_takeBytes fun b => good_forTarget fun t => ?_
    split
    · rfl
    · exact good_precondition (good_unpackTileAs _ bpp b)
  | _ => exact good_query _ _ _

theorem good_answerTo (req : Request) : (answerTo req).good = true := by
  unfold answerTo
  split
  · exact good_answerOf _ _
  · rfl

end Sys2Proof.Machine
end

