-- ==== Sys2Proof/Laws/Tiles.lean ====
section
/-! SUPPORT. What tile packing computes, bit by bit, and that unpacking undoes it. -/

namespace Sys2Proof.Machine

theorem indexInRange_iff {bpp : Nat} {d : List Index} :
    indexInRange bpp d = true ↔ ∀ x ∈ d, x.toNat < 2 ^ bpp := by
  simp [indexInRange]

/-- An element of an array whose elements are in range has no bit from `bpp` up. -/
theorem bitAt_eq_false {bpp : Nat} {d : List Index} (h : ∀ x ∈ d, x.toNat < 2 ^ bpp) {i k : Nat} (hk : bpp ≤ k) :
    bitAt d i k = false := by
  unfold bitAt
  rw [List.getD_eq_getElem?_getD]
  cases hd : d[i]? with
  | none => simp
  | some x => exact getLsbD_eq_false_of_lt (h x (List.mem_of_getElem? hd)) hk

/-- Two arrays of one length with the same bits are one array. -/
theorem eq_of_bitAt {d e : List (BitVec 8)} (hlen : d.length = e.length)
    (h : ∀ i < d.length, ∀ k < 8, bitAt d i k = bitAt e i k) : d = e := by
  apply List.ext_getElem hlen
  intro i hi hi'
  refine byte_eq_of_bits fun k hk => ?_
  have := h i hi k hk
  unfold bitAt at this
  rw [List.getD_eq_getElem?_getD, List.getD_eq_getElem?_getD, List.getElem?_eq_getElem hi,
    List.getElem?_eq_getElem hi'] at this
  exact this

/-- Element `i` of a tabulated array. -/
theorem getD_map_range {f : Nat → BitVec 8} {n i : Nat} (hi : i < n) : ((List.range n).map f).getD i 0 = f i := by
  simp [List.getD_eq_getElem?_getD, hi]

/-! ### `PLANAR2` -/

@[simp] theorem length_planar2 (bpp : Nat) (d : List Index) : (planar2 bpp d).length = 8 * bpp := by simp [planar2]

@[simp] theorem length_unplanar2 (bpp : Nat) (b : List Byte) : (unplanar2 bpp b).length = 64 := by simp [unplanar2]

/-- Bit `i` of byte `n` of a packed tile. -/
theorem bitAt_planar2 {bpp : Nat} {d : List Index} {n i : Nat} (hn : n < 8 * bpp) (hi : i < 8) :
    bitAt (planar2 bpp d) n i = bitAt d (8 * (n % 16 / 2) + (7 - i)) (2 * (n / 16) + n % 2) := by
  unfold planar2
  rw [bitAt, getD_map_range hn, planar2Byte, getLsbD_byteOfBits]
  simp only [hi, decide_true, Bool.true_and]

/-- Bit `k` of element `i` of an unpacked tile. -/
theorem bitAt_unplanar2 {bpp : Nat} {b : List Byte} {i k : Nat} (hi : i < 64) (hk : k < 8) :
    bitAt (unplanar2 bpp b) i k =
      (decide (k < bpp) && bitAt b (16 * (k / 2) + 2 * (i / 8) + k % 2) (7 - i % 8)) := by
  unfold unplanar2
  rw [bitAt, getD_map_range hi, unplanar2Index, getLsbD_byteOfBits]
  simp only [hk, decide_true, Bool.true_and]

/-- Unpacking a packed tile gives its indexes back; `bpp` is even and at most 8. -/
theorem unplanar2_planar2 {bpp : Nat} (heven : bpp % 2 = 0) {d : List Index} (hlen : d.length = 64)
    (h : ∀ x ∈ d, x.toNat < 2 ^ bpp) : unplanar2 bpp (planar2 bpp d) = d := by
  apply eq_of_bitAt (by simp [hlen])
  intro i hi k hk
  rw [length_unplanar2] at hi
  rw [bitAt_unplanar2 hi hk]
  by_cases hkb : k < bpp
  · rw [bitAt_planar2 (by omega) (by omega)]
    simp only [hkb, decide_true, Bool.true_and]
    congr 1 <;> omega
  · rw [bitAt_eq_false h (by omega)]
    simp only [hkb, decide_false, Bool.false_and]

/-- Packing an unpacked tile gives its bytes back. -/
theorem planar2_unplanar2 {bpp : Nat} (heven : bpp % 2 = 0) (hle : bpp ≤ 8) {b : List Byte}
    (hlen : b.length = 8 * bpp) : planar2 bpp (unplanar2 bpp b) = b := by
  apply eq_of_bitAt (by simp [hlen])
  intro n hn i hi
  rw [length_planar2] at hn
  rw [bitAt_planar2 hn hi, bitAt_unplanar2 (by omega) (by omega)]
  simp only [show 2 * (n / 16) + n % 2 < bpp by omega, decide_true, Bool.true_and]
  congr 1 <;> omega

/-- Every index of an unpacked tile is in range. -/
theorem unplanar2_lt {bpp : Nat} (b : List Byte) : ∀ x ∈ unplanar2 bpp b, x.toNat < 2 ^ bpp := by
  intro x hx
  obtain ⟨i, -, rfl⟩ := List.mem_map.1 hx
  refine toNat_lt_pow_of_bits fun k hk hk8 => ?_
  rw [unplanar2Index, getLsbD_byteOfBits]
  simp only [show ¬ k < bpp by omega, decide_false, Bool.false_and, Bool.and_false]

/-! ### `NIBBLE` at 4 bpp -/

theorem nibble_byte (x y : Index) (hx : x.toNat < 16) (hy : y.toNat < 16) :
    (x ||| (y <<< 4)).toNat = x.toNat + y.toNat * 16 := by
  have h : y <<< 4 &&& x = 0#8 := by
    apply BitVec.eq_of_getLsbD_eq
    intro k hk
    rw [BitVec.getLsbD_and, BitVec.getLsbD_shiftLeft, BitVec.getLsbD_zero]
    by_cases h4 : k < 4
    · simp only [h4, decide_true, Bool.not_true, Bool.and_false, Bool.false_and]
    · rw [getLsbD_eq_false_of_lt (n := 4) (i := k) hx (by omega), Bool.and_false]
  rw [BitVec.or_comm, ← BitVec.add_eq_or_of_and_eq_zero _ _ h, BitVec.toNat_add_of_and_eq_zero h,
    BitVec.toNat_shiftLeft, Nat.shiftLeft_eq]
  omega

theorem low_nibble (x : Byte) : (x &&& (0x0F : Byte)).toNat = x.toNat % 16 := by
  rw [BitVec.toNat_and]
  exact Nat.and_two_pow_sub_one_eq_mod x.toNat 4

theorem high_nibble (x : Byte) : (x >>> 4).toNat = x.toNat / 16 := by
  rw [BitVec.toNat_ushiftRight, Nat.shiftRight_eq_div_pow]

/-- Packing an even number of in-range indexes, pair by pair. -/
theorem nibbles_pairs (pairs : List (Index × Index)) :
    nibbles (pairs.flatMap fun x => [x.1, x.2]) = pairs.map fun x : Index × Index => (x.1 ||| (x.2 <<< 4) : Byte) := by
  induction pairs with
  | nil => rfl
  | cons x pairs ih => simp [nibbles, ih]

/-- An array of even length is a list of pairs. -/
theorem exists_pairs {α : Type} : ∀ {l : List α}, l.length % 2 = 0 →
    ∃ pairs : List (α × α), l = pairs.flatMap fun x => [x.1, x.2]
  | [], _ => ⟨[], rfl⟩
  | [x], h => by simp at h
  | x :: y :: l, h => by
    obtain ⟨pairs, hp⟩ := exists_pairs (l := l) (by simp only [List.length_cons] at h; omega)
    exact ⟨(x, y) :: pairs, by rw [hp]; rfl⟩

theorem unnibbles_nibbles {d : List Index} (heven : d.length % 2 = 0) (h : ∀ x ∈ d, x.toNat < 16) :
    unnibbles (nibbles d) = d := by
  obtain ⟨pairs, rfl⟩ := exists_pairs heven
  rw [nibbles_pairs]
  unfold unnibbles
  induction pairs with
  | nil => rfl
  | cons x pairs ih =>
    have hx : x.1.toNat < 16 := h x.1 (by simp)
    have hy : x.2.toNat < 16 := h x.2 (by simp)
    have e1 : (x.1 ||| (x.2 <<< 4)) &&& (0x0F : Byte) = x.1 :=
      BitVec.eq_of_toNat_eq (by rw [low_nibble, nibble_byte _ _ hx hy]; omega)
    have e2 : (x.1 ||| (x.2 <<< 4)) >>> 4 = x.2 :=
      BitVec.eq_of_toNat_eq (by rw [high_nibble, nibble_byte _ _ hx hy]; omega)
    rw [List.map_cons, List.flatMap_cons, List.flatMap_cons, e1, e2,
      ih (by rw [List.flatMap_cons, List.length_append] at heven; simp only [List.length_cons, List.length_nil] at heven; omega)
        fun y hy' => h y (by rw [List.flatMap_cons]; exact List.mem_append_right _ hy')]

theorem nibbles_unnibbles (b : List Byte) : nibbles (unnibbles b) = b := by
  induction b with
  | nil => rfl
  | cons x b ih =>
    have hx : (x &&& (0x0F : Byte)) ||| ((x >>> 4) <<< 4) = x := by
      apply BitVec.eq_of_toNat_eq
      have h1 := low_nibble x
      have h2 := high_nibble x
      have h3 := x.isLt
      rw [nibble_byte _ _ (by omega) (by omega)]
      omega
    have : unnibbles (x :: b) = (x &&& (0x0F : Byte)) :: (x >>> 4) :: unnibbles b := rfl
    rw [this, nibbles, ih, hx]

theorem unnibbles_lt (b : List Byte) : ∀ x ∈ unnibbles b, x.toNat < 16 := by
  intro x hx
  obtain ⟨y, -, hy⟩ := List.mem_flatMap.1 hx
  have h1 := low_nibble y
  have h2 := high_nibble y
  have h3 := y.isLt
  rcases List.mem_pair.1 hy with rfl | rfl <;> omega

theorem length_unnibbles (b : List Byte) : (unnibbles b).length = 2 * b.length := by
  induction b with
  | nil => rfl
  | cons x b ih =>
    have : unnibbles (x :: b) = (x &&& (0x0F : Byte)) :: (x >>> 4) :: unnibbles b := rfl
    rw [this, List.length_cons, List.length_cons, ih, List.length_cons]
    omega

theorem length_nibbles : ∀ d : List Index, (nibbles d).length = d.length / 2
  | [] => rfl
  | [_] => by simp [nibbles]
  | x :: y :: d => by
    rw [nibbles, List.length_cons, length_nibbles d, List.length_cons, List.length_cons]
    omega

/-! ### `PLANAR1` -/

@[simp] theorem length_planar1 (p : Params) (d : List Index) : (planar1 p d).length = 4 * (d.length / 8) := by
  simp [planar1]

/-- Bit `i` of byte `k*n + j` of a packed sprite. -/
theorem bitAt_planar1 {p : Params} {d : List Index} {k j i : Nat} (hk : k < 4) (hj : j < d.length / 8) (hi : i < 8) :
    bitAt (planar1 p d) (k * (d.length / 8) + j) i = bitAt d (8 * j + spriteBit p.spriteBitOrder i) k := by
  have hn : 0 < d.length / 8 := by omega
  have hlt : k * (d.length / 8) + j < 4 * (d.length / 8) := by
    calc k * (d.length / 8) + j < k * (d.length / 8) + d.length / 8 := by omega
      _ = (k + 1) * (d.length / 8) := (Nat.succ_mul ..).symm
      _ ≤ 4 * (d.length / 8) := Nat.mul_le_mul_right _ hk
  have hmod : (k * (d.length / 8) + j) % (d.length / 8) = j := by
    rw [Nat.add_comm, Nat.add_mul_mod_self_right, Nat.mod_eq_of_lt hj]
  have hdiv : (k * (d.length / 8) + j) / (d.length / 8) = k := by
    rw [Nat.add_comm, Nat.add_mul_div_right _ _ hn, Nat.div_eq_of_lt hj, Nat.zero_add]
  unfold planar1
  rw [bitAt, getD_map_range hlt, getLsbD_byteOfBits, hmod, hdiv]
  simp only [hi, decide_true, Bool.true_and]

/-! ### Allowed depths -/

/-- "every allowed bit depth is even and at most 8" (40_mode_capability_table.md R112). -/
theorem allowedBpps_even {t : Target} {bpp : Nat} (h : bpp ∈ allowedBpps t) : bpp % 2 = 0 ∧ bpp ≤ 8 := by
  cases t <;> simp [allowedBpps] at h <;> omega

end Sys2Proof.Machine
end

