-- ==== Sys2Proof/Laws/Answers.lean ====
section
/-! SUPPORT. What color packing, color unpacking and the tile operations answer, for a real mode and a buffer of
elements of the right type. -/

namespace Sys2Proof.Machine

/-! ### Buffers -/

theorem map_color_injective {cs ds : List Color} (h : cs.map Element.color = ds.map Element.color) : cs = ds := by
  simpa using congrArg colorsOf h

theorem map_byte_injective {bs cs : List Byte} (h : bs.map Element.byte = cs.map Element.byte) : bs = cs := by
  simpa using congrArg bytesOf h

theorem map_index_injective {d e : List Index} (h : d.map Element.index = e.map Element.index) : d = e := by
  simpa using congrArg indexesOf h

/-- A list of pairs written out has even length. -/
theorem length_pairs_even {α : Type} (pairs : List (α × α)) :
    (pairs.flatMap fun x => [x.1, x.2]).length % 2 = 0 := by
  induction pairs with
  | nil => rfl
  | cons x pairs ih =>
    rw [List.flatMap_cons, List.length_append, List.length_cons, List.length_cons, List.length_nil]
    omega

/-! ### Colors -/

/-- Every mode but `gb` has a two-byte layout. -/
theorem exists_layoutOf (p : Params) {t : Target} (ht : t ≠ .gb) : ∃ L, layoutOf p t = some L := by
  cases t <;> first | exact ⟨_, rfl⟩ | exact absurd rfl ht

theorem answerOf_packColors {t : Target} {L : Layout} (hL : layoutOf params t = some L) (qs : List Color) :
    answerOf (.packColors (.real t)) (qs.map .color) =
      precondition (qs.all (inRange t)) .channelOutOfRange (respondBytes (qs.flatMap (bytes2 L))) := by
  have ht : t ≠ .gb := by
    rintro rfl
    simp [layoutOf] at hL
  simp only [answerOf, packColors, takeColors_map, forTarget_real, hL, requireQuantized_of_ne ht]

theorem answerOf_packColors_gb (qs : List Color) :
    answerOf (.packColors (.real .gb)) (qs.map .color) = packGb .gb qs := by
  simp only [answerOf, packColors, takeColors_map, forTarget_real, layoutOf]

theorem answerOf_unpackColors {t : Target} {L : Layout} (hL : layoutOf params t = some L) (bs : List Byte) :
    answerOf (.unpackColors (.real t)) (bs.map .byte) =
      lengthRule (decide (bs.length % 2 = 0)) (respondColors (colorsOfPairs (channelWidth t) L bs)) := by
  simp only [answerOf, unpackColors, takeBytes_map, forTarget_real, hL]

theorem answerOf_unpackColors_gb (bs : List Byte) :
    answerOf (.unpackColors (.real .gb)) (bs.map .byte) = unpackGb bs := by
  simp only [answerOf, unpackColors, takeBytes_map, forTarget_real, layoutOf]

/-- Unpacking an even number of bytes, pair by pair. -/
theorem colorsOfPairs_pairs (w : Nat) (L : Layout) (pairs : List (Byte × Byte)) :
    colorsOfPairs w L (pairs.flatMap fun x => [x.1, x.2]) = pairs.map fun x => color2 w L x.1 x.2 := by
  induction pairs with
  | nil => rfl
  | cons x pairs ih => simp [colorsOfPairs, ih]

theorem length_colorsOfPairs (w : Nat) (L : Layout) : ∀ bs, (colorsOfPairs w L bs).length = bs.length / 2
  | [] => rfl
  | [_] => by simp [colorsOfPairs]
  | _ :: _ :: bs => by
    rw [colorsOfPairs, List.length_cons, length_colorsOfPairs w L bs, List.length_cons, List.length_cons]
    omega

theorem length_bytes2 (L : Layout) (q : Color) : (bytes2 L q).length = 2 := by
  unfold bytes2 bytesOfWord
  cases L.order <;> rfl

/-- The bytes of a word, as numbers. -/
theorem bytesOfWord_eq (order : ByteOrder) (W : BitVec 16) :
    bytesOfWord order W = match order with
      | .little => [BitVec.ofNat 8 (W.toNat % 256), BitVec.ofNat 8 (W.toNat / 256)]
      | .big => [BitVec.ofNat 8 (W.toNat / 256), BitVec.ofNat 8 (W.toNat % 256)] := by
  have low : W.extractLsb' 0 8 = BitVec.ofNat 8 (W.toNat % 256) := by
    apply BitVec.eq_of_toNat_eq
    simp [BitVec.extractLsb'_toNat]
  have high : W.extractLsb' 8 8 = BitVec.ofNat 8 (W.toNat / 256) := by
    apply BitVec.eq_of_toNat_eq
    simp [BitVec.extractLsb'_toNat, Nat.shiftRight_eq_div_pow]
  cases order <;> simp only [bytesOfWord, low, high]

/-- The word of two bytes, as a number. -/
theorem wordOfBytes_toNat (order : ByteOrder) (b0 b1 : Byte) :
    (wordOfBytes order b0 b1).toNat = match order with
      | .little => b0.toNat + b1.toNat * 256
      | .big => b1.toNat + b0.toNat * 256 := by
  have h0 := b0.isLt
  have h1 := b1.isLt
  cases order <;> simp only [wordOfBytes, BitVec.toNat_append]
  · rw [← Nat.shiftLeft_add_eq_or_of_lt h0, Nat.shiftLeft_eq]
    omega
  · rw [← Nat.shiftLeft_add_eq_or_of_lt h1, Nat.shiftLeft_eq]
    omega

/-- A field of a word, as a number. -/
theorem wordField_eq {w pos : Nat} (hw : w ≤ 8) (W : BitVec 16) :
    wordField w pos W = BitVec.ofNat 8 (W.toNat / 2 ^ pos % 2 ^ w) := by
  apply BitVec.eq_of_getLsbD_eq
  intro i hi
  rw [getLsbD_wordField hw, BitVec.getLsbD_ofNat, Nat.testBit_mod_two_pow, Nat.testBit_div_two_pow, Nat.add_comm pos]
  simp [hi, BitVec.getLsbD]

/-- A field is in the range of its width. -/
theorem wordField_lt {w pos : Nat} (hw : w ≤ 8) (W : BitVec 16) : (wordField w pos W).toNat < 2 ^ w := by
  apply toNat_lt_pow_of_bits
  intro i hi _
  rw [getLsbD_wordField hw]
  simp [Nat.not_lt.2 hi]

/-! ### Tiles -/

theorem answerOf_packTile {t : Target} {bpp : Nat} (hb : bpp ∈ allowedBpps t) (d : List Index) :
    answerOf (.packTile (.real t) bpp) (d.map .index) = packTileAs params (tileLayout t) bpp d := by
  simp [answerOf, packTile, hb]

theorem answerOf_unpackTile {t : Target} {bpp : Nat} (ht : t ≠ .pceSprite) (hb : bpp ∈ allowedBpps t)
    (b : List Byte) : answerOf (.unpackTile (.real t) bpp) (b.map .byte) = unpackTileAs (tileLayout t) bpp b := by
  simp [answerOf, unpackTile, ht, hb]

/-- A tile is packed only at a depth its mode allows. -/
theorem allowed_of_packTile {t : Target} {bpp : Nat} {d : List Index} {out : Output}
    (h : answerOf (.packTile (.real t) bpp) (d.map .index) = .respond out) : bpp ∈ allowedBpps t := by
  by_contra hc
  simp [answerOf, packTile, hc] at h

/-- A tile is unpacked only at a depth its mode allows, and never in `pce_sprite`. -/
theorem allowed_of_unpackTile {t : Target} {bpp : Nat} {b : List Byte} {out : Output}
    (h : answerOf (.unpackTile (.real t) bpp) (b.map .byte) = .respond out) :
    bpp ∈ allowedBpps t ∧ t ≠ .pceSprite := by
  have ht : t ≠ .pceSprite := by
    rintro rfl
    simp [answerOf, unpackTile] at h
  refine ⟨?_, ht⟩
  by_contra hc
  simp [answerOf, unpackTile, hc, ht] at h

end Sys2Proof.Machine
end

