-- ==== Sys2Proof/Laws/PerInstr.lean ====
section
/-! SUPPORT. Family `Row`: the row of 30_encoding.md R74 that an operation's code selects builds the operation back
from its mode and its scalar operand. -/

namespace Sys2Proof.Laws.Row

def Statement (i : Instr) : Prop :=
  ∃ form, opForm i.op = some form ∧
    (i.wellFormed = true → readArg form i.mode (BitVec.ofNat 16 i.arg) = .ok i)

theorem plain {i : Instr} {build : Mode → Instr} (hf : opForm i.op = some (.plain build)) (ha : i.arg = 0)
    (hb : build i.mode = i) : Statement i :=
  ⟨_, hf, fun _ => by simp [readArg, ha, hb]⟩

theorem withArg {i : Instr} {build : Mode → Nat → Instr} (hf : opForm i.op = some (.withArg build))
    (hb : build i.mode i.arg = i) : Statement i := by
  refine ⟨_, hf, fun h => ?_⟩
  have hlt : i.arg < 65536 := by simpa [Instr.wellFormed] using h
  simp [readArg, Nat.mod_eq_of_lt hlt, hb]

theorem defaultBpp (m : Mode) : Statement (.defaultBpp m) := plain rfl rfl rfl
theorem allowedBpp (m : Mode) (bpp : Nat) : Statement (.allowedBpp m bpp) := withArg rfl rfl
theorem defaultTileSize (m : Mode) : Statement (.defaultTileSize m) := plain rfl rfl rfl
theorem maxTileCount (m : Mode) : Statement (.maxTileCount m) := plain rfl rfl rfl
theorem tileWidthAllowed (m : Mode) (width : Nat) : Statement (.tileWidthAllowed m width) := withArg rfl rfl
theorem tileHeightAllowed (m : Mode) (height : Nat) : Statement (.tileHeightAllowed m height) := withArg rfl rfl
theorem tileFlippingAllowed (m : Mode) : Statement (.tileFlippingAllowed m) := plain rfl rfl rfl
theorem defaultMapSize (m : Mode) : Statement (.defaultMapSize m) := plain rfl rfl rfl
theorem defaultPaletteCount (m : Mode) : Statement (.defaultPaletteCount m) := plain rfl rfl rfl
theorem col0IsShared (m : Mode) : Statement (.col0IsShared m) := plain rfl rfl rfl
theorem col0IsSharedForSprite (m : Mode) : Statement (.col0IsSharedForSprite m) := plain rfl rfl rfl
theorem reduceColor (m : Mode) : Statement (.reduceColor m) := plain rfl rfl rfl
theorem reduceColors (m : Mode) : Statement (.reduceColors m) := plain rfl rfl rfl
theorem reduceColorsSet (m : Mode) : Statement (.reduceColorsSet m) := plain rfl rfl rfl
theorem normalizeColor (m : Mode) : Statement (.normalizeColor m) := plain rfl rfl rfl
theorem normalizeColors (m : Mode) : Statement (.normalizeColors m) := plain rfl rfl rfl
theorem packColors (m : Mode) : Statement (.packColors m) := plain rfl rfl rfl
theorem unpackColors (m : Mode) : Statement (.unpackColors m) := plain rfl rfl rfl
theorem packTile (m : Mode) (bpp : Nat) : Statement (.packTile m bpp) := withArg rfl rfl
theorem unpackTile (m : Mode) (bpp : Nat) : Statement (.unpackTile m bpp) := withArg rfl rfl

end Sys2Proof.Laws.Row
end

