-- ==== Sys2Proof/Tests/Slice0.lean ====
section
/-! SUPPORT. Tests: words written out from 30_encoding.md sections 1 and 2, vectors of 95_test_vectors.md (V<n>), and
for every obligation with hypotheses a witness that meets them. -/

namespace Sys2Proof.Tests

open Sys2Proof.Machine

/-! ### Helpers -/

/-- The response to one request, in one step. -/
def ask (cmd : CmdWord) (input : List Element) : Option Response :=
  match step ⟨none, [⟨cmd, input⟩], []⟩ with
  | .next t => t.lastResponse
  | _ => none

/-- Why one request is refused. -/
def whyRefused (cmd : CmdWord) (input : List Element) : Option Refusal :=
  match step ⟨none, [⟨cmd, input⟩], []⟩ with
  | .refused why => some why
  | _ => none

def answered (elems : List Element) : Option Response := some ⟨.ok, .seq elems⟩

def failed (status : Status) : Option Response := some ⟨status, .seq []⟩

def indexes (l : List Nat) : List Element := l.map fun n => .index (BitVec.ofNat 8 n)

def bytes (l : List Nat) : List Element := l.map fun n => .byte (BitVec.ofNat 8 n)

def col (r g b a : Byte) : Element := .color ⟨r, g, b, a⟩

/-- A state with a request in flight. -/
def holding (input : List Element) : State := ⟨some ⟨0, input⟩, [], []⟩

/-! ### Decoding: one word per operation, fields op, zero, mode, arg -/

theorem test_decode_defaultBpp : decode 0b00010000_0000_0001_0000000000000000 =
    .ok (.defaultBpp (.real .snes)) := by decide
theorem test_decode_allowedBpp : decode 0b00010001_0000_0101_0000000000001000 =
    .ok (.allowedBpp (.real .gba) 8) := by decide
theorem test_decode_defaultTileSize : decode 0b00010010_0000_1001_0000000000000000 =
    .ok (.defaultTileSize (.real .pceSprite)) := by decide
theorem test_decode_maxTileCount : decode 0b00010011_0000_0111_0000000000000000 =
    .ok (.maxTileCount (.real .md)) := by decide
theorem test_decode_tileWidthAllowed : decode 0b00010100_0000_1001_0000000000010000 =
    .ok (.tileWidthAllowed (.real .pceSprite) 16) := by decide
theorem test_decode_tileHeightAllowed : decode 0b00010101_0000_0011_1111111111111111 =
    .ok (.tileHeightAllowed (.real .gb) 65535) := by decide
theorem test_decode_tileFlippingAllowed : decode 0b00010110_0000_0100_0000000000000000 =
    .ok (.tileFlippingAllowed (.real .gbc)) := by decide
theorem test_decode_defaultMapSize : decode 0b00010111_0000_0010_0000000000000000 =
    .ok (.defaultMapSize (.real .snesMode7)) := by decide
theorem test_decode_defaultPaletteCount : decode 0b00011000_0000_0110_0000000000000000 =
    .ok (.defaultPaletteCount (.real .gbaAffine)) := by decide
theorem test_decode_col0IsShared : decode 0b00011001_0000_0011_0000000000000000 =
    .ok (.col0IsShared (.real .gb)) := by decide
theorem test_decode_col0IsSharedForSprite : decode 0b00011010_0000_1000_0000000000000000 =
    .ok (.col0IsSharedForSprite (.real .pce)) := by decide
theorem test_decode_reduceColor : decode 0b00100000_0000_0000_0000000000000000 =
    .ok (.reduceColor .none) := by decide
theorem test_decode_reduceColors : decode 0b00100001_0000_0011_0000000000000000 =
    .ok (.reduceColors (.real .gb)) := by decide
theorem test_decode_reduceColorsSet : decode 0b00100010_0000_0001_0000000000000000 =
    .ok (.reduceColorsSet (.real .snes)) := by decide
theorem test_decode_normalizeColor : decode 0b00110000_0000_0111_0000000000000000 =
    .ok (.normalizeColor (.real .md)) := by decide
theorem test_decode_normalizeColors : decode 0b00110001_0000_0101_0000000000000000 =
    .ok (.normalizeColors (.real .gba)) := by decide
theorem test_decode_packColors : decode 0b01000000_0000_0011_0000000000000000 =
    .ok (.packColors (.real .gb)) := by decide
theorem test_decode_unpackColors : decode 0b01000001_0000_1000_0000000000000000 =
    .ok (.unpackColors (.real .pce)) := by decide
theorem test_decode_packTile : decode 0b01010000_0000_1001_0000000000000100 =
    .ok (.packTile (.real .pceSprite) 4) := by decide
theorem test_decode_unpackTile : decode 0b01010001_0000_0010_0000000000001000 =
    .ok (.unpackTile (.real .snesMode7) 8) := by decide

/-! ### Words that spell no operation (V21; one per clause of 30_encoding.md R80, at its boundary) -/

theorem test_decode_zero_field : decode 0b00100000_0001_0001_0000000000000000 = .reject .zeroFieldNotZero := by decide
theorem test_decode_op_below : decode 0b00001111_0000_0001_0000000000000000 = .reject .opUnassigned := by decide
theorem test_decode_op_above : decode 0b00011011_0000_0001_0000000000000000 = .reject .opUnassigned := by decide
theorem test_decode_mode_ten : decode 0b00100000_0000_1010_0000000000000000 = .reject .modeReserved := by decide
theorem test_decode_arg_one : decode 0b00100000_0000_0001_0000000000000001 = .reject .argNotZero := by decide
theorem test_input_shape : decodeRequest 0x20010000 [] = .reject .inputShape := by decide

/-! ### WellFormed refuses an ill-formed term -/

theorem test_wellFormed_bpp : (Instr.allowedBpp .none 65535).wellFormed = true ∧
    (Instr.allowedBpp .none 65536).wellFormed = false := by decide
theorem test_wellFormed_width : (Instr.tileWidthAllowed (.real .snes) 65536).wellFormed = false := by decide
theorem test_wellFormed_height : (Instr.tileHeightAllowed (.real .gb) 70000).wellFormed = false := by decide
theorem test_wellFormed_tile : (Instr.packTile (.real .snes) 65536).wellFormed = false ∧
    (Instr.unpackTile (.real .snes) 65536).wellFormed = false := by decide
theorem test_wellFormed_plain : (Instr.reduceColor .none).wellFormed = true := by decide

/-! ### Unit 1 (V10) -/

theorem test_defaultBpp_gb : ask 0x10030000 [] = answered [.word 2] := by decide
theorem test_defaultBpp_none : ask 0x10000000 [] = failed .unsupported := by decide
theorem test_allowedBpp_gba : ask 0x11050008 [] = answered [.word 1] := by decide
theorem test_allowedBpp_affine : ask 0x11060004 [] = answered [.word 0] := by decide
theorem test_defaultTileSize_snes : ask 0x12010000 [] = answered [.word 8] := by decide
theorem test_defaultTileSize_sprite : ask 0x12090000 [] = answered [.word 16] := by decide
theorem test_maxTileCount_sprite : ask 0x13090000 [] = answered [.word 0] := by decide
theorem test_tileWidth_snes : ask 0x14010010 [] = answered [.word 1] := by decide
theorem test_tileWidth_sprite : ask 0x14090008 [] = answered [.word 0] := by decide
theorem test_tileHeight_gb : ask 0x15030010 [] = answered [.word 0] := by decide
theorem test_tileHeight_md : ask 0x15070008 [] = answered [.word 1] := by decide
theorem test_flipping_gbc : ask 0x16040000 [] = answered [.word 1] := by decide
theorem test_flipping_affine : ask 0x16060000 [] = answered [.word 0] := by decide
theorem test_defaultMapSize_mode7 : ask 0x17020000 [] = answered [.word 128] := by decide
theorem test_paletteCount_none : ask 0x18000000 [] = failed .unsupported := by decide
theorem test_col0_gbc : ask 0x19040000 [] = answered [.word 0] := by decide
theorem test_col0_snes : ask 0x19010000 [] = answered [.word 1] := by decide
theorem test_col0Sprite_gb : ask 0x1A030000 [] = answered [.word 1] := by decide

/-! ### Unit 2 (V11, V12, V13) -/

theorem test_reduceColor_alpha : ask 0x20010000 [col 0x12 0x34 0x56 0x80] = answered [col 0x02 0x06 0x0A 0xFF] := by
  decide
theorem test_reduceColor_band : ask 0x20030000 [col 0xC1 0xC0 0xC0 0xFF] = answered [col 3 3 3 0xFF] := by decide
theorem test_reduceColors_md : ask 0x21070000 [col 0xFF 0x80 0x1F 0xFF, col 0 0 0 0x10] =
    answered [col 7 4 0 0xFF, col 0 0 0 0xFF] := by decide
theorem test_reduceColors_none : ask 0x21000000 [] = failed .unsupported := by decide
theorem test_reduceColorsSet_snes :
    ask 0x22010000 [col 0xFF 0 0 0xFF, col 0xF8 0x07 0 0x80, col 0 0 0 0] =
      some ⟨.ok, .set [⟨0, 0, 0, 0xFF⟩, ⟨0x1F, 0, 0, 0xFF⟩]⟩ := by decide
theorem test_reduceColorsSet_repeated : ask 0x22010000 [col 1 1 1 1, col 1 1 1 1] = failed .invalid := by decide

/-! ### Unit 3 (V14) -/

theorem test_normalizeColor_alpha : ask 0x30010000 [col 1 1 1 0x12] = answered [col 8 8 8 0x12] := by decide
/-- V14, and the row U6 of 93_implementation_defined.md. -/
theorem test_normalizeColor_refused : whyRefused 0x30030000 [col 4 4 4 0xFF] = some .channelOutOfRange ∧
    whyRefused 0x30030000 [col 1 2 3 0xFF] = some .colorNotGray := by decide
theorem test_normalizeColors_md : ask 0x31070000 [col 7 4 0 0xFF, col 0 0 0 0xFF] =
    answered [col 0xE0 0x80 0 0xFF, col 0 0 0 0xFF] := by decide
theorem test_normalizeColors_empty : ask 0x31030000 [] = answered [] := by decide

/-! ### Unit 4 (V15, V16, V17) -/

theorem test_packColors_snes : ask 0x40010000 [col 0x1F 0 0 0xFF, col 0x02 0x06 0x0A 0xFF] =
    answered (bytes [0x1F, 0x00, 0xC2, 0x28]) := by decide
theorem test_packColors_gb : ask 0x40030000 [col 3 3 3 0xFF, col 0 0 0 0xFF, col 3 3 3 0xFF, col 1 1 1 0xFF] =
    answered (bytes [0x8C]) := by decide
theorem test_unpackColors_snes : ask 0x41010000 (bytes [0xC2, 0xA8]) = answered [col 0x02 0x06 0x0A 0xFF] := by decide
theorem test_unpackColors_gb : ask 0x41030000 (bytes [0x1B]) =
    answered [col 0 0 0 0xFF, col 1 1 1 0xFF, col 2 2 2 0xFF, col 3 3 3 0xFF] := by decide

/-! The recalled layouts of 00_scope.md R8, on the functions that take a layout (V17). -/

theorem test_bytes2_md : bytes2 recalledLayouts.1 ⟨1, 2, 3, 0xFF⟩ = [0x06, 0x42] := by decide
theorem test_bytes2_pce : bytes2 recalledLayouts.2 ⟨7, 4, 0, 0xFF⟩ = [0x38, 0x01] := by decide

/-! ### Unit 5 (V18, V19, V20) -/

theorem test_packTile_snes : ask 0x50010002 (indexes (3 :: List.replicate 63 0)) =
    answered (bytes (0x80 :: 0x80 :: List.replicate 14 0)) := by decide
theorem test_packTile_sprite : ask 0x50090004 (indexes [0xF, 0, 0, 0, 0, 0, 0, 1, 8, 9, 0xA, 0xB, 0xC, 0xD, 0xE, 0xF]) =
    answered (bytes [0x81, 0x55, 0x80, 0x33, 0x80, 0x0F, 0x80, 0xFF]) := by decide
theorem test_unpackTile_md : ask 0x51070004 (bytes [0x10, 0x32]) = answered (indexes [0, 1, 2, 3]) := by decide
theorem test_unpackTile_sprite : ask 0x51090008 (bytes [1, 2, 3, 4, 5]) = failed .unsupported := by decide

/-! ### The order of checks (V21) -/

theorem test_none_before_count : ask 0x40000000 [col 0 0 0 0, col 0 0 0 0, col 0 0 0 0] = failed .unsupported := by
  decide
theorem test_bpp_before_length : whyRefused 0x50010003 (indexes (List.replicate 63 0)) = some .bppNotAllowed := by decide
theorem test_length_before_range : ask 0x50050004 (indexes [0x10, 0, 0]) = failed .structural := by decide
theorem test_count_before_range : ask 0x40030000 [col 9 9 9 0xFF, col 1 1 1 0xFF, col 2 2 2 0xFF] =
    failed .structural := by decide

/-! ### Placing a word and the pseudo-operations -/

theorem test_decodeTableWord : decodeTableWord 32 0x50010002 = some (.packTile (.real .snes) 2) ∧
    decodeTableWord 32 0x60010000 = none := by decide

theorem test_withFetchWord : step (State.reset.withFetchWord 32 0x12090000) =
    .next ⟨none, [], [⟨.ok, .seq [.word 16]⟩]⟩ := rfl

/-- `EXPORT_COLORS snes`, the document's example (V1). -/
theorem test_exportColors : exportColors (.real .snes) [col 0xFF 0 0 0xFF] State.reset =
    .next ⟨none, [], [⟨.ok, .seq (bytes [0x1F, 0x00])⟩, ⟨.ok, .seq [col 0x1F 0 0 0xFF]⟩]⟩ := rfl

/-- `IMPORT_COLORS none`: the first request fails and the second is not issued (30_encoding.md R83). -/
theorem test_importColors_none : importColors .none (bytes [0x1F]) State.reset =
    .next ⟨none, [], [⟨.unsupported, .seq []⟩]⟩ := rfl

/-! ### Witnesses: the hypotheses of each obligation are met together -/

theorem witness_DecodeOfEncode : (Instr.unpackTile (.real .pceSprite) 65535).wellFormed = true := by decide

theorem witness_EncodeOfDecode : decode 0x51020008 = .ok (.unpackTile (.real .snesMode7) 8) := by decide

/-- One word for each clause, in no other clause. -/
theorem witness_RejectedWordsAreTheInvalidOnes :
    (∃ why, decode 0x20110000 = .reject why) ∧ (∃ why, decode 0x1B010000 = .reject why) ∧
      (∃ why, decode 0x200A0000 = .reject why) ∧ (∃ why, decode 0x20010001 = .reject why) ∧
      ¬ ∃ why, decode 0x20090000 = .reject why :=
  ⟨⟨.zeroFieldNotZero, by decide⟩, ⟨.opUnassigned, by decide⟩, ⟨.modeReserved, by decide⟩, ⟨.argNotZero, by decide⟩, by
    rintro ⟨why, h⟩
    revert h
    cases why <;> decide⟩

theorem witness_StepExecutesDecodedRequest :
    decodeRequest 0x41030000 (bytes [0x1B]) = .ok (.unpackColors (.real .gb)) := by decide

theorem witness_UndecodedRequestIsInvalid :
    decodeRequest 0x60010000 [] = .reject .opUnassigned ∧ decodeRequest 0x10010000 (bytes [0]) = .reject .inputShape := by
  decide

/-- A wrong shape for each group of operations, at its boundary. -/
theorem witness_WrongShapeIsInvalid :
    (holding (bytes [0])).input ≠ [] ∧
    (¬ ∃ c, (holding [col 0 0 0 0, col 0 0 0 0]).input = [Element.color c]) ∧
    (¬ ∃ c, (holding []).input = [Element.color c]) ∧
    (¬ ∃ cs, (holding (bytes [0])).input = List.map Element.color cs) ∧
    (¬ ∃ cs, (holding [col 0 0 0 0, col 0 0 0 0]).input = List.map Element.color cs ∧ cs.Nodup) ∧
    (¬ ∃ bs, (holding (indexes [0])).input = List.map Element.byte bs) ∧
    (¬ ∃ d, (holding (bytes [0])).input = List.map Element.index d) := by
  refine ⟨by decide, ?_, ?_, ?_, ?_, ?_, ?_⟩
  · rintro ⟨c, h⟩
    simp [holding] at h
  · rintro ⟨c, h⟩
    simp [holding] at h
  · rintro ⟨cs, h⟩
    exact absurd (colorsOf_eq_some.2 h) (by simp [holding, bytes, colorsOf])
  · rintro ⟨cs, h, hn⟩
    have := colorsOf_eq_some.2 h
    simp only [holding, col, input_of_request, colorsOf, Option.map_some, Option.some.injEq] at this
    subst this
    simp at hn
  · rintro ⟨bs, h⟩
    exact absurd (bytesOf_eq_some.2 h) (by simp [holding, indexes, bytesOf])
  · rintro ⟨d, h⟩
    exact absurd (indexesOf_eq_some.2 h) (by simp [holding, bytes, indexesOf])

/-- A state that keeps the invariant, and a step from it. -/
theorem witness_StepKeepsInvariant :
    State.Inv ⟨none, [⟨0x12090000, []⟩], [⟨.invalid, .seq []⟩]⟩ ∧
      step ⟨none, [⟨0x12090000, []⟩], [⟨.invalid, .seq []⟩]⟩ =
        .next ⟨none, [], [⟨.ok, .seq [.word 16]⟩, ⟨.invalid, .seq []⟩]⟩ :=
  ⟨⟨rfl, by decide⟩, rfl⟩

theorem witness_FailureReturnsNothing :
    step ⟨none, [⟨0x20000000, [col 0 0 0 0]⟩], []⟩ = .next ⟨none, [], [⟨.unsupported, .seq []⟩]⟩ := rfl

theorem witness_NoRequestYieldsInternal :
    step ⟨none, [⟨0x41010000, bytes [0x1F]⟩], []⟩ = .next ⟨none, [], [⟨.structural, .seq []⟩]⟩ := rfl

/-- A request with a response, and one that is refused. -/
theorem witness_ResponseDependsOnRequestOnly :
    step ⟨none, [⟨0x12090000, []⟩], []⟩ = .next ⟨none, [], [⟨.ok, .seq [.word 16]⟩]⟩ ∧
      step ⟨none, [⟨0x30010000, [col 0x20 0 0 0xFF]⟩], []⟩ = .refused .channelOutOfRange := ⟨rfl, rfl⟩

theorem witness_RequestsCommuteInEveryOrder :
    Sys2Proof.core.run 2 ⟨none, [⟨0x12090000, []⟩, ⟨0x60010000, []⟩], []⟩ =
        .next ⟨none, [], [⟨.invalid, .seq []⟩, ⟨.ok, .seq [.word 16]⟩]⟩ ∧
      [⟨0x60010000, []⟩, ⟨0x12090000, []⟩].Perm [(⟨0x12090000, []⟩ : Request), ⟨0x60010000, []⟩] :=
  ⟨rfl, List.Perm.swap ..⟩

theorem witness_PlacedWordIsExecuted :
    (Instr.reduceColor (.real .md)).wellFormed = true ∧
      (Instr.reduceColor (.real .md)).inputShape.accepts [col 1 2 3 4] = true := by decide

theorem witness_ModeNoneIsUnsupported :
    (Instr.packTile .none 65535).mode = .none ∧
      (Instr.packTile .none 65535).inputShape.accepts (holding (indexes [0xFF])).input = true := by decide

/-- For the statements about the table: a query's empty buffer. -/
theorem witness_empty_input : (holding []).input = [] := rfl

/-- Every buffer is the input of some state: a hypothesis `s.input = …` is always met beside conditions on the list. -/
theorem witness_every_input (cs : List Color) (bs : List Byte) (d : List Index) :
    (holding (cs.map .color)).input = cs.map .color ∧ (holding (bs.map .byte)).input = bs.map .byte ∧
      (holding (d.map .index)).input = d.map .index := ⟨rfl, rfl, rfl⟩

/-- The inner hypothesis of the last clause, at the largest depth. -/
theorem witness_TableIsSelfConsistent :
    (holding []).input = [] ∧ AnswersOk (.allowedBpp (.real .snes) 8) (holding []) [.word 1] := ⟨rfl, rfl⟩

/-- Both sides of the alpha decision, and a mode of each family. -/
theorem witness_ReduceFollowsItsFormula :
    (0x7F : Byte).toNat < 0x80 ∧ 0x80 ≤ (0x80 : Byte).toNat ∧
      Target.gbaAffine ∈ [Target.snes, .snesMode7, .gbc, .gba, .gbaAffine] ∧
      Target.pceSprite ∈ [Target.md, .pce, .pceSprite] := by decide

/-- The three exact thresholds (V12, gray 0x40, 0x80, 0xC0), a band's lower and upper end, and each rounding. -/
theorem witness_GbLevelByThresholds :
    lumaSum 0x40 0x40 0x40 = 64000 ∧ lumaSum 0x80 0x80 0x80 = 128000 ∧ lumaSum 0xC0 0xC0 0xC0 = 192000 ∧
      lumaSum 0x41 0x41 0x41 = 65000 ∧ lumaSum 0xC1 0xC0 0xC0 = 192299 ∧ params.lumaRounding = .exact ∧
      (⟨0, .floor, .msbFirst, 2, 4, fun _ => 0, fun _ => 0, fun _ => 1, default, default⟩ : Params).lumaRounding
        = .floor := by decide

theorem witness_ReduceColorAnswers : (holding [col 1 2 3 4]).input = [.color ⟨1, 2, 3, 4⟩] := rfl

theorem witness_ReduceColorsAnswers :
    (holding [col 1 2 3 4, col 1 2 3 4]).input = List.map Element.color [⟨1, 2, 3, 4⟩, ⟨1, 2, 3, 4⟩] ∧
      (holding []).input = List.map Element.color [] := ⟨rfl, rfl⟩

theorem witness_ReduceColorsSetAnswers :
    (holding [col 1 2 3 4, col 0 0 0 0]).input = List.map Element.color [⟨1, 2, 3, 4⟩, ⟨0, 0, 0, 0⟩] ∧
      [(⟨1, 2, 3, 4⟩ : Color), ⟨0, 0, 0, 0⟩].Nodup ∧
      [(⟨0, 0, 0, 0⟩ : Color), ⟨1, 2, 3, 4⟩].Perm [⟨1, 2, 3, 4⟩, ⟨0, 0, 0, 0⟩] :=
  ⟨rfl, by decide, List.Perm.swap ..⟩

theorem witness_ReduceStaysInRange : params.tAlpha = opaqueMarker ∧ (0x7F : Byte).toNat < 0x80 := by decide

/-- The top color of each family is in range. -/
theorem witness_NormalizeShiftsLeft :
    inRange .snes ⟨0x1F, 0x1F, 0x1F, 0⟩ = true ∧ inRange .gb ⟨3, 3, 3, 0⟩ = true ∧
      inRange .md ⟨7, 7, 7, 0⟩ = true := by decide

/-- The first color out of range of each family, and `gb` colors in range, gray and not. -/
theorem witness_NormalizeAnswers :
    (holding [col 0x20 0 0 0]).input = [.color ⟨0x20, 0, 0, 0⟩] ∧ inRange .snes ⟨0x20, 0, 0, 0⟩ = false ∧
      inRange .gb ⟨0, 4, 0, 0⟩ = false ∧ inRange .md ⟨0, 0, 8, 0⟩ = false ∧
      (inRange .gb ⟨3, 3, 3, 0⟩ = true ∧ isGray ⟨3, 3, 3, 0⟩ = true) ∧
      (inRange .gb ⟨3, 3, 2, 0⟩ = true ∧ isGray ⟨3, 3, 2, 0⟩ = false) :=
  ⟨rfl, by decide, by decide, by decide, by decide, by decide⟩

theorem witness_ReduceUndoesNormalize :
    Target.md ≠ .gb ∧ representable .md ⟨7, 4, 0, 0xFF⟩ = true ∧ representable .snes ⟨0x1F, 0, 0, 0xFF⟩ = true := by
  decide

theorem witness_NormalizeAfterReduceClearsLowBits :
    Target.pce ≠ .gb ∧ 0x80 ≤ (0x80 : Byte).toNat ∧
      5 = (if Target.pce ∈ [Target.md, .pce, .pceSprite] then 5 else 3) ∧
      3 = (if Target.snes ∈ [Target.md, .pce, .pceSprite] then 5 else 3) := by decide

theorem witness_GbLevelFallsByOneEachPass : (0 : Byte).toNat ≤ 3 ∧ (3 : Byte).toNat ≤ 3 := by decide

theorem witness_PackColorsFiveBit :
    Target.gbc ∈ [Target.snes, .snesMode7, .gbc, .gba, .gbaAffine] ∧
      (holding [col 0x1F 0x1F 0x1F 0]).input = List.map Element.color [⟨0x1F, 0x1F, 0x1F, 0⟩] ∧
      (∀ q ∈ [(⟨0x1F, 0x1F, 0x1F, 0⟩ : Color)], inRange .gbc q = true) ∧
      (∃ q ∈ [(⟨0x20, 0, 0, 0⟩ : Color)], inRange .gbc q = false) :=
  ⟨by decide, rfl, by decide, by decide⟩

theorem witness_PackColorsThreeBit :
    (Target.md = .md ∧ params.mdLayout = params.mdLayout) ∧
      (Target.pceSprite ∈ [Target.pce, .pceSprite] ∧ params.pceLayout = params.pceLayout) ∧
      (holding [col 7 7 7 0]).input = List.map Element.color [⟨7, 7, 7, 0⟩] ∧
      (∀ q ∈ [(⟨7, 7, 7, 0⟩ : Color)], inRange .pceSprite q = true) ∧
      (∃ q ∈ [(⟨0, 8, 0, 0⟩ : Color)], inRange .md q = false) :=
  ⟨⟨rfl, rfl⟩, ⟨by decide, rfl⟩, rfl, by decide, by decide⟩

/-- Each clause at its boundary: levels 0 and 3; three and five colors; a level of 4; an in-range color not gray; and
the four-color lists where the last two clauses meet: with a level of 4 beside the color that is not gray only the third
applies, without it only the fourth. -/
theorem witness_PackColorsGb :
    (0 : Byte).toNat ≤ 3 ∧ (3 : Byte).toNat ≤ 3 ∧
      (List.replicate 3 (⟨0, 0, 0, 0⟩ : Color)).length ≠ 4 ∧ (List.replicate 5 (⟨0, 0, 0, 0⟩ : Color)).length ≠ 4 ∧
      ((holding [col 4 4 4 0, col 1 2 1 0, col 0 0 0 0, col 3 3 3 0]).input =
          List.map Element.color [⟨4, 4, 4, 0⟩, ⟨1, 2, 1, 0⟩, ⟨0, 0, 0, 0⟩, ⟨3, 3, 3, 0⟩] ∧
        (∃ q ∈ [(⟨4, 4, 4, 0⟩ : Color), ⟨1, 2, 1, 0⟩, ⟨0, 0, 0, 0⟩, ⟨3, 3, 3, 0⟩], inRange .gb q = false) ∧
        ¬ ∀ q ∈ [(⟨4, 4, 4, 0⟩ : Color), ⟨1, 2, 1, 0⟩, ⟨0, 0, 0, 0⟩, ⟨3, 3, 3, 0⟩], inRange .gb q = true) ∧
      ((holding [col 3 3 3 0, col 1 2 1 0, col 0 0 0 0, col 3 3 3 0]).input =
          List.map Element.color [⟨3, 3, 3, 0⟩, ⟨1, 2, 1, 0⟩, ⟨0, 0, 0, 0⟩, ⟨3, 3, 3, 0⟩] ∧
        (∀ q ∈ [(⟨3, 3, 3, 0⟩ : Color), ⟨1, 2, 1, 0⟩, ⟨0, 0, 0, 0⟩, ⟨3, 3, 3, 0⟩], inRange .gb q = true) ∧
        ∃ q ∈ [(⟨3, 3, 3, 0⟩ : Color), ⟨1, 2, 1, 0⟩, ⟨0, 0, 0, 0⟩, ⟨3, 3, 3, 0⟩], isGray q = false) :=
  ⟨by decide, by decide, by decide, by decide, ⟨rfl, by decide, by decide⟩, rfl, by decide, by decide⟩

theorem witness_UnpackColorsLengthRule :
    Target.pce ≠ .gb ∧ (holding (bytes [1])).input = List.map Element.byte [1] ∧ [(1 : Byte)].length % 2 ≠ 0 ∧
      (holding []).input = List.map Element.byte [] ∧ ([] : List Byte).length % 2 = 0 :=
  ⟨by decide, rfl, by decide, rfl, by decide⟩

theorem witness_UnpackColorsFiveBit :
    Target.gbaAffine ∈ [Target.snes, .snesMode7, .gbc, .gba, .gbaAffine] ∧
      (holding (bytes [0xFF, 0xFF])).input = [(0xFF, 0xFF)].flatMap fun x => [.byte x.1, .byte x.2] :=
  ⟨by decide, rfl⟩

theorem witness_UnpackColorsThreeBit :
    (Target.pce ∈ [Target.pce, .pceSprite] ∧ params.pceLayout = params.pceLayout) ∧
      (holding (bytes [0xFF, 0xFF])).input = [(0xFF, 0xFF)].flatMap fun x => [.byte x.1, .byte x.2] :=
  ⟨⟨by decide, rfl⟩, rfl⟩

theorem witness_UnpackColorsGb :
    (holding (bytes [0x1B])).input = [.byte 0x1B] ∧
      (holding (bytes [0x1B, 0xE4])).input = List.map Element.byte [0x1B, 0xE4] ∧ [(0x1B : Byte), 0xE4].length ≠ 1 ∧
      (holding []).input = List.map Element.byte [] ∧ ([] : List Byte).length ≠ 1 :=
  ⟨rfl, rfl, by decide, rfl, by decide⟩

theorem witness_UnpackUndoesPack :
    (∀ q ∈ [(⟨7, 7, 7, 0xFF⟩ : Color)], representable .md q = true) ∧
      (∀ q ∈ List.replicate 4 (⟨3, 3, 3, 0xFF⟩ : Color), representable .gb q = true) ∧
      (Target.gb = .gb → (List.replicate 4 (⟨3, 3, 3, 0xFF⟩ : Color)).length = 4) := by decide

/-- Bytes whose unused bit 15 is zero, in the five-bit family; and zero bytes, in any layout. -/
theorem witness_PackUndoesUnpack :
    (Target.snes ∈ [Target.snes, .snesMode7, .gbc, .gba, .gbaAffine] ∧
        fiveBitLayout = (⟨0, 5, 10, .little⟩ : Layout) ∧ 5 = 5) ∧
      (holding (bytes [0xFF, 0x7F])).input = [(0xFF, 0x7F)].flatMap (fun x => [.byte x.1, .byte x.2]) ∧
      (∀ k < 16, ¬ (0 ≤ k ∧ k < 0 + 5) ∧ ¬ (5 ≤ k ∧ k < 5 + 5) ∧ ¬ (10 ≤ k ∧ k < 10 + 5) →
        ((0xFF : Byte).toNat + (0x7F : Byte).toNat * 256).testBit k = false) ∧
      (∀ order : ByteOrder, ∀ k < 16, (match order with
        | .little => (0 : Byte).toNat + (0 : Byte).toNat * 256
        | .big => (0 : Byte).toNat + (0 : Byte).toNat * 256).testBit k = false) := by
  refine ⟨by decide, rfl, by decide, ?_⟩
  intro order
  cases order <;> decide

theorem witness_ExportThenImportClearsLowBits :
    Target.snes ≠ .gb ∧ (∀ c ∈ [(⟨0xFF, 7, 8, 0x80⟩ : Color)], 0x80 ≤ c.a.toNat) ∧
      3 = (if Target.snes ∈ [Target.md, .pce, .pceSprite] then 5 else 3) := by decide

theorem witness_PackTilePlanar2Bits :
    (Target.snes = .snes ∧ 8 ∈ [2, 4, 8]) ∧ (Target.gbc ∈ [Target.gb, .gbc] ∧ 2 = 2) ∧ (Target.pce = .pce ∧ 4 = 4) ∧
      (holding (indexes (List.replicate 64 3))).input = List.map Element.index (List.replicate 64 3) ∧
      (∀ x ∈ List.replicate 64 (3 : Index), x.toNat < 2 ^ 2) :=
  ⟨by decide, by decide, by decide, rfl, fun x hx => by rw [List.eq_of_mem_replicate hx]; decide⟩

theorem witness_PackTileNibbles :
    Target.md ∈ [Target.gba, .md] ∧ [(1 : Index), 2, 3].length % 2 ≠ 0 ∧
      (holding (indexes [0xF, 0])).input = [(0xF, 0)].flatMap (fun x => [.index x.1, .index x.2]) ∧
      (∀ x ∈ [((0xF : Index), (0 : Index))], x.1.toNat < 16 ∧ x.2.toNat < 16) :=
  ⟨by decide, by decide, rfl, by simp⟩

theorem witness_PackTilePlanar1Bits :
    (holding (indexes [0, 1, 2, 3, 4, 5, 6, 0xF])).input = List.map Element.index [0, 1, 2, 3, 4, 5, 6, 0xF] ∧
      [(0 : Index), 1, 2, 3, 4, 5, 6, 0xF].length % 8 = 0 ∧
      (∀ x ∈ [(0 : Index), 1, 2, 3, 4, 5, 6, 0xF], x.toNat < 16) ∧ [(0 : Index), 1, 2, 3].length % 8 ≠ 0 :=
  ⟨rfl, by decide, by decide, by decide⟩

theorem witness_TilePassthrough :
    Target.gbaAffine ∈ [Target.snesMode7, .gba, .gbaAffine] ∧
      (holding (indexes [0xFF])).input = List.map Element.index [0xFF] ∧
      (holding (bytes [0xFF])).input = List.map Element.byte [0xFF] := ⟨by decide, rfl, rfl⟩

theorem witness_Planar2LengthRules :
    (Target.snes = .snes ∧ 2 ∈ [2, 4, 8]) ∧ (List.replicate 63 (0 : Index)).length ≠ 64 ∧
      (List.replicate 65 (0 : Index)).length ≠ 64 ∧ (List.replicate 15 (0 : Byte)).length ≠ 8 * 2 ∧
      (List.replicate 32 (0 : Byte)).length ≠ 8 * 2 := by decide

/-- A depth not allowed; and for each layout an index that does not fit where the length rule is met. -/
theorem witness_TileRefusals :
    8 ∉ allowedBpps .md ∧ 4 ∉ allowedBpps .gbaAffine ∧
      (2 ∈ allowedBpps .snes ∧ (∃ x ∈ List.replicate 64 (4 : Index), 2 ^ 2 ≤ x.toNat) ∧
        (List.replicate 64 (4 : Index)).length = 64) ∧
      (4 ∈ allowedBpps .gba ∧ (∃ x ∈ [(0x10 : Index), 0], 2 ^ 4 ≤ x.toNat) ∧ [(0x10 : Index), 0].length % 2 = 0) ∧
      (4 ∈ allowedBpps .pceSprite ∧ (∃ x ∈ List.replicate 8 (0x10 : Index), 2 ^ 4 ≤ x.toNat) ∧
        (List.replicate 8 (0x10 : Index)).length % 8 = 0) := by decide

theorem witness_UnpackTilePlanar2Bits :
    (Target.pce = .pce ∧ 4 = 4) ∧ (List.replicate 32 (0xFF : Byte)).length = 8 * 4 ∧
      (holding (bytes (List.replicate 32 0xFF))).input = List.map Element.byte (List.replicate 32 0xFF) :=
  ⟨by decide, by decide, rfl⟩

theorem witness_UnpackTileNibbles :
    Target.gba ∈ [Target.gba, .md] ∧ (holding (bytes [0xFE])).input = List.map Element.byte [0xFE] := ⟨by decide, rfl⟩

theorem witness_UnpackSpriteIsUnsupported :
    (holding []).input = List.map Element.byte [] ∧ (holding (bytes [1])).input = List.map Element.byte [1] := ⟨rfl, rfl⟩

/-- A tile that is packed, and its bytes. -/
theorem witness_UnpackUndoesPackTile :
    Target.md ≠ .pceSprite ∧ (holding (indexes [0xF, 0])).input = List.map Element.index [0xF, 0] ∧
      AnswersOk (.packTile (.real .md) 4) (holding (indexes [0xF, 0])) (List.map Element.byte [0x0F]) ∧
      (holding (bytes [0x0F])).input = List.map Element.byte [0x0F] := ⟨by decide, rfl, rfl, rfl⟩

theorem witness_PackUndoesUnpackTile :
    (holding (bytes [0x0F])).input = List.map Element.byte [0x0F] ∧
      AnswersOk (.unpackTile (.real .md) 4) (holding (bytes [0x0F])) (List.map Element.index [0xF, 0]) ∧
      (holding (indexes [0xF, 0])).input = List.map Element.index [0xF, 0] := ⟨rfl, rfl, rfl⟩

/-- A two-byte color, the two depths of a `gba` tile in both directions, and a set. -/
theorem witness_OutputLengthIsBounded :
    AnswersOk (.packColors (.real .snes)) (holding [col 0x1F 0 0 0]) (bytes [0x1F, 0]) ∧
      AnswersOk (.packTile (.real .gba) 4) (holding (indexes [1, 2])) (bytes [0x21]) ∧
      AnswersOk (.packTile (.real .gba) 8) (holding (indexes [1, 2])) (bytes [1, 2]) ∧
      AnswersOk (.unpackTile (.real .gba) 4) (holding (bytes [0x21])) (indexes [1, 2]) ∧
      AnswersOk (.unpackTile (.real .gba) 8) (holding (bytes [0x21])) (indexes [0x21]) ∧
      Answers (.reduceColorsSet (.real .snes)) (holding [col 0 0 0 0, col 1 1 1 0xFF]) .ok (.set [⟨0, 0, 0, 0xFF⟩]) :=
  ⟨rfl, rfl, rfl, rfl, rfl, rfl⟩

end Sys2Proof.Tests
end

/-! PROOFS. The machine's statements (20_memory.md): the response depends on the request alone (R52). -/

namespace Sys2Proof.Machine

/-- A step answers a request with response `r` in every rest of the state, if its answer has the response `r`. -/
theorem step_eq_next_of_responseOf {req : Request} {r : Response} (h : responseOf (answerTo req) = some r)
    (rest : List Request) (rs : List Response) : step ⟨none, req :: rest, rs⟩ = .next ⟨none, rest, r :: rs⟩ := by
  rw [step_of_script]
  exact deliver_eq_next.2 ⟨r, h, rfl⟩

/-- A step refuses a request in every rest of the state, if its answer is that refusal. -/
theorem step_eq_refused_of_answerTo {req : Request} {why : Refusal} (h : answerTo req = .refuse why)
    (rest : List Request) (rs : List Response) : step ⟨none, req :: rest, rs⟩ = .refused why := by
  rw [step_of_script]
  exact deliver_eq_refused.2 h

/-- An answer has a response or is a refusal. -/
theorem responseOf_or_refuse (a : Answer) : (∃ r, responseOf a = some r) ∨ ∃ why, a = .refuse why := by
  cases a with
  | respond out => exact .inl ⟨_, rfl⟩
  | raise kind => exact .inl ⟨_, rfl⟩
  | refuse why => exact .inr ⟨why, rfl⟩

/-- Settles O13: the step delivers `answerTo req`, which the rest of the state does not enter; that answer has a
response or is a refusal. -/
theorem responseDependsOnRequestOnly : Obligations.ResponseDependsOnRequestOnly := by
  intro req
  obtain ⟨r, hr⟩ | ⟨why, hwhy⟩ := responseOf_or_refuse (answerTo req)
  · exact .inl ⟨r, out_of_failure hr, step_eq_next_of_responseOf hr⟩
  · exact .inr ⟨why, step_eq_refused_of_answerTo hwhy⟩

end Sys2Proof.Machine

/-! PROOFS. The mode capability table (40_mode_capability_table.md): a query answers its table row for a real mode and
`UNSUPPORTED` for `none` (R100). -/

namespace Sys2Proof.Machine

/-- An operation answers the response its answer is delivered as. -/
theorem answers_of_responseOf {i : Instr} {s : State} {status : Status} {out : Output}
    (h : responseOf (answerOf i s.input) = some ⟨status, out⟩) : Answers i s status out :=
  exec_eq_next.2 ⟨_, h, rfl⟩

/-- All a query does on the buffer it takes: `UNSUPPORTED` for `none`, and for a real mode the word of its row. -/
theorem answers_of_query {op : Mode → Instr} {row : Target → Nat} {word : Target → Word}
    (hop : ∀ m, answerOf (op m) [] = query m row []) (hword : ∀ t, BitVec.ofNat 32 (row t) = word t)
    {s : State} (hs : s.input = []) :
    Fails (op .none) s .unsupported ∧ ∀ t : Target, AnswersOk (op (.real t)) s [.word (word t)] := by
  constructor
  · apply answers_of_responseOf
    rw [hs, hop]
    rfl
  · intro t
    apply answers_of_responseOf
    rw [hs, hop, ← hword]
    rfl

/-- The word of a boolean result that states `P` (10_state.md R24). -/
theorem ofNat_boolWord {b : Bool} {P : Prop} [Decidable P] (h : b = true ↔ P) :
    BitVec.ofNat 32 (boolWord b) = if P then 1 else 0 := by
  by_cases hP : P
  · rw [if_pos hP, h.2 hP]
    rfl
  · rw [if_neg hP, Bool.eq_false_iff.2 (mt h.1 hP)]
    rfl

/-! ### The boolean rows -/

theorem bppAllowed_iff {bpp : Nat} {t : Target} : bppAllowed bpp t = true ↔ bpp ∈ allowedBpps t :=
  List.contains_iff_mem

theorem flippingAllowed_iff {t : Target} : flippingAllowed t = true ↔ t ∈ [Target.snes, .gbc, .gba, .md] := by
  cases t <;> decide

theorem col0Shared_iff {t : Target} : col0Shared t = true ↔ t ∉ [Target.gb, .gbc] := by
  cases t <;> decide

/-- Settles O19: the query's row is membership in the mode's legal depths, which the statement writes out per mode. -/
theorem allowedBppAnswers : Obligations.AllowedBppAnswers := by
  refine ⟨fun m bpp => opField_encode (.allowedBpp m bpp), fun bpp s hs => ?_⟩
  refine answers_of_query (op := fun m => .allowedBpp m bpp) (fun _ => rfl) (fun t => ?_) hs
  rw [ofNat_boolWord bppAllowed_iff]
  cases t <;> rfl

/-- Settles O23: the query's row is true exactly for the four modes with flip bits. -/
theorem tileFlippingAnswers : Obligations.TileFlippingAnswers :=
  ⟨fun m => opField_encode (.tileFlippingAllowed m), fun _ hs =>
    answers_of_query (fun _ => rfl) (fun _ => ofNat_boolWord flippingAllowed_iff) hs⟩

/-- Settles O24: the query's row is false exactly for `gb` and `gbc`. -/
theorem col0IsSharedAnswers : Obligations.Col0IsSharedAnswers :=
  ⟨fun m => opField_encode (.col0IsShared m), fun _ hs =>
    answers_of_query (fun _ => rfl) (fun _ => by rw [ofNat_boolWord col0Shared_iff, ite_not]) hs⟩

end Sys2Proof.Machine

/-! PROOFS. The color quantizer (41_color_quantizer.md): the formula of `reduce` (R130) and the reduction of a whole
sequence (R133). -/

namespace Sys2Proof.Machine

/-! ### The formula of each family -/

/-- In a five-bit mode the shift by `k(m)` drops three bits. -/
theorem channelShift_of_five :
    ∀ t ∈ [Target.snes, .snesMode7, .gbc, .gba, .gbaAffine], t ≠ .gb ∧ 2 ^ channelShift t = 8 := by decide

/-- In a three-bit mode the shift by `k(m)` drops five bits. -/
theorem channelShift_of_three : ∀ t ∈ [Target.md, .pce, .pceSprite], t ≠ .gb ∧ 2 ^ channelShift t = 32 := by decide

/-- Outside `gb`, the reduction of an opaque color divides each channel by `2 ^ k(m)`. -/
theorem reduce_opaque_eq_div (p : Params) {t : Target} (ht : t ≠ .gb) {c : Color} (h : 0x80 ≤ c.a.toNat) :
    reduce p t c = ⟨BitVec.ofNat 8 (c.r.toNat / 2 ^ channelShift t), BitVec.ofNat 8 (c.g.toNat / 2 ^ channelShift t),
      BitVec.ofNat 8 (c.b.toNat / 2 ^ channelShift t), opaqueMarker⟩ := by
  simp only [reduce_opaque p ht h, shiftRight_eq_div]

/-- Settles O27: the alpha decision, then the mode's family; a shift by `k(m)` is the division by 8 or by 32. -/
theorem reduceFollowsItsFormula : Obligations.ReduceFollowsItsFormula := by
  refine fun p t c => ⟨reduce_transparent p t, fun hopaque => ⟨fun hfive => ?_, fun hgb => ?_, fun hthree => ?_⟩⟩
  · obtain ⟨hne, hshift⟩ := channelShift_of_five t hfive
    rw [reduce_opaque_eq_div p hne hopaque, hshift]
  · rw [hgb, reduce_gb p hopaque, grayColor]
  · obtain ⟨hne, hshift⟩ := channelShift_of_three t hthree
    rw [reduce_opaque_eq_div p hne hopaque, hshift]

/-! ### Reducing a sequence -/

theorem answerOf_reduceColors (m : Mode) (cs : List Color) :
    answerOf (.reduceColors m) (cs.map .color) = forTarget m fun t => respondColors (cs.map (reduce params t)) :=
  takeColors_map cs _

/-- Settles O30: the answer for a real mode is the input mapped by `reduce`, position by position. -/
theorem reduceColorsAnswers : Obligations.ReduceColorsAnswers := by
  refine ⟨fun m => opField_encode (.reduceColors m), fun cs s hs => ⟨?_, fun t => ?_⟩⟩
  · apply answers_of_responseOf
    rw [hs, answerOf_reduceColors, forTarget_none]
    rfl
  · refine ⟨cs.map (reduce params t), ?_, List.length_map _, fun n _ _ => List.getElem_map _⟩
    apply answers_of_responseOf
    rw [hs, answerOf_reduceColors, forTarget_real]
    rfl

end Sys2Proof.Machine

/-! PROOFS. The color normalizer (42_color_normalizer.md): `normalize` multiplies by `2 ^ k(m)` without truncation
(R150). -/

namespace Sys2Proof.Machine

/-- A channel of `w` bits multiplied by `2 ^ k` is at most `256 - 2 ^ k`, since it is at most `2 ^ w - 1`. -/
theorem mul_two_pow_le {w k n : Nat} (h : w + k = 8) (hn : n < 2 ^ w) : n * 2 ^ k ≤ 256 - 2 ^ k := by
  calc n * 2 ^ k ≤ (2 ^ w - 1) * 2 ^ k := Nat.mul_le_mul_right _ (Nat.le_sub_one_of_lt hn)
    _ = 256 - 2 ^ k := by rw [Nat.sub_one_mul, ← Nat.pow_add, h]

/-- A channel in range, shifted left by `k(m)`, is the product by `2 ^ k(m)` and at most `256 - 2 ^ k(m)`. -/
theorem shiftLeft_channelShift {t : Target} {x : Byte} (hx : x.toNat < 2 ^ channelWidth t) :
    (x <<< channelShift t).toNat = x.toNat * 2 ^ channelShift t ∧
      (x <<< channelShift t).toNat ≤ 256 - 2 ^ channelShift t := by
  have hmul := shiftLeft_toNat (width_add_shift t) hx
  exact ⟨hmul, hmul ▸ mul_two_pow_le (width_add_shift t) hx⟩

/-- Settles O33: the statement's `k` is the mode's `k(m)`, and each channel in range is shifted without truncation. -/
theorem normalizeShiftsLeft : Obligations.NormalizeShiftsLeft := by
  intro t q k hk hrange
  obtain rfl : k = channelShift t := hk.trans (by cases t <;> rfl)
  obtain ⟨hr, hg, hb⟩ := inRange_iff.1 hrange
  obtain ⟨hrMul, hrLe⟩ := shiftLeft_channelShift hr
  obtain ⟨hgMul, hgLe⟩ := shiftLeft_channelShift hg
  obtain ⟨hbMul, hbLe⟩ := shiftLeft_channelShift hb
  exact ⟨hrMul, hgMul, hbMul, rfl, hrLe, hgLe, hbLe⟩

end Sys2Proof.Machine

/-! PROOFS. The color packer (43_color_packer.md): the length rule of color unpacking in the two-byte modes (R173). -/

namespace Sys2Proof.Machine

/-- In a two-byte mode an even number of bytes answers the color of each pair. -/
theorem answerOf_unpackColors_of_even {t : Target} {L : Layout} (hL : layoutOf params t = some L) {bs : List Byte}
    (heven : bs.length % 2 = 0) :
    answerOf (.unpackColors (.real t)) (bs.map .byte) = respondColors (colorsOfPairs (channelWidth t) L bs) := by
  rw [answerOf_unpackColors hL, decide_eq_true heven, lengthRule_true]

/-- In a two-byte mode an odd number of bytes fails whole. -/
theorem answerOf_unpackColors_of_odd {t : Target} {L : Layout} (hL : layoutOf params t = some L) {bs : List Byte}
    (hodd : bs.length % 2 ≠ 0) : answerOf (.unpackColors (.real t)) (bs.map .byte) = .raise .structural := by
  rw [answerOf_unpackColors hL, decide_eq_false hodd, lengthRule_false]

/-- Settles O41: every mode but `gb` has a two-byte layout, whose length rule passes the pairs or fails whole. -/
theorem unpackColorsLengthRule : Obligations.UnpackColorsLengthRule := by
  intro t bs s ht hs
  obtain ⟨L, hL⟩ := exists_layoutOf params ht
  refine ⟨fun heven => ⟨colorsOfPairs (channelWidth t) L bs, ?_, ?_⟩, fun hodd => ?_⟩
  · apply answers_of_responseOf
    rw [hs, answerOf_unpackColors_of_even hL heven]
    rfl
  · rw [length_colorsOfPairs]
    exact Nat.mul_div_cancel' (Nat.dvd_of_mod_eq_zero heven)
  · apply answers_of_responseOf
    rw [hs, answerOf_unpackColors_of_odd hL hodd]
    rfl

end Sys2Proof.Machine

/-! PROOFS. The tile packer (44_tile_packer.md): `PACK_TILE` on 2-bit planes (R204) and on nibbles (R208), and
`UNPACK_TILE` of sprite bytes (R214). -/

namespace Sys2Proof.Machine

/-! ### 2-bit planes -/

/-- The modes and depths of the 2-bit-plane layout (R200, R202). -/
theorem planar2_allowed {t : Target} {bpp : Nat}
    (h : t = .snes ∧ bpp ∈ [2, 4, 8] ∨ t ∈ [Target.gb, .gbc] ∧ bpp = 2 ∨ t = .pce ∧ bpp = 4) :
    tileLayout t = .planar2 ∧ bpp ∈ allowedBpps t := by
  obtain ⟨rfl, hb⟩ | ⟨ht, rfl⟩ | ⟨rfl, rfl⟩ := h
  · exact ⟨rfl, hb⟩
  · obtain rfl | rfl := List.mem_pair.1 ht <;> decide
  · decide

/-- 64 in-range indexes meet the length rule and the precondition of the 2-bit-plane layout. -/
theorem packTileAs_planar2 (p : Params) {bpp : Nat} {d : List Index} (hlen : d.length = 64)
    (hrange : ∀ x ∈ d, x.toNat < 2 ^ bpp) : packTileAs p .planar2 bpp d = respondBytes (planar2 bpp d) := by
  simp only [packTileAs, hlen, indexInRange_iff.2 hrange, decide_true, Bool.and_true, precondition_true,
    lengthRule_true]

/-- Byte `2 * row + j` of block `p` holds plane `2 * p + j` of the row, the first column in the most significant bit
(R204, R46). -/
theorem bitAt_planar2_plane {bpp : Nat} (d : List Index) {p row col j : Nat} (hp : p < bpp / 2) (hrow : row < 8)
    (hcol : col < 8) (hj : j < 2) :
    bitAt (planar2 bpp d) (16 * p + 2 * row + j) (7 - col) = bitAt d (8 * row + col) (2 * p + j) := by
  rw [bitAt_planar2 (by omega) (by omega)]
  congr 1 <;> omega

/-- Settles O48: the answer is `planar2 bpp d`, whose bytes at even and odd places are the two planes of a block. -/
theorem packTilePlanar2Bits : Obligations.PackTilePlanar2Bits := by
  intro t bpp d s ht hs hlen hrange
  obtain ⟨hlayout, hallowed⟩ := planar2_allowed ht
  refine ⟨planar2 bpp d, ?_, length_planar2 bpp d, fun p hp row hrow col hcol =>
    ⟨bitAt_planar2_plane (j := 0) d hp hrow hcol Nat.two_pos,
      bitAt_planar2_plane (j := 1) d hp hrow hcol Nat.one_lt_two⟩⟩
  apply answers_of_responseOf
  rw [hs, answerOf_packTile hallowed, hlayout, packTileAs_planar2 params hlen hrange]
  rfl

/-! ### Nibbles -/

/-- In `gba` and `md`, `PACK_TILE` at 4 bpp is the nibble layout: its length rule, its precondition, its bytes. -/
theorem answerOf_packTile_nibble {t : Target} (ht : t ∈ [Target.gba, .md]) (d : List Index) :
    answerOf (.packTile (.real t) 4) (d.map .index) =
      lengthRule (decide (d.length % 2 = 0))
        (precondition (indexInRange 4 d) .indexOutOfRange (respondBytes (nibbles d))) := by
  obtain rfl | rfl := List.mem_pair.1 ht <;> exact answerOf_packTile (by decide) d

/-- In-range indexes written out pair by pair are an array of in-range indexes. -/
theorem indexInRange_pairs {pairs : List (Index × Index)} (h : ∀ x ∈ pairs, x.1.toNat < 16 ∧ x.2.toNat < 16) :
    indexInRange 4 (pairs.flatMap fun x => [x.1, x.2]) = true := by
  refine indexInRange_iff.2 fun y hy => ?_
  obtain ⟨x, hx, hyx⟩ := List.mem_flatMap.1 hy
  obtain ⟨heven, hodd⟩ := h x hx
  obtain rfl | rfl := List.mem_pair.1 hyx
  · exact heven
  · exact hodd

/-- The byte of each pair of in-range indexes is their sum, the odd pixel weighted by 16. -/
theorem nibbles_pairs_toNat {pairs : List (Index × Index)} (h : ∀ x ∈ pairs, x.1.toNat < 16 ∧ x.2.toNat < 16) :
    nibbles (pairs.flatMap fun x => [x.1, x.2]) =
      pairs.map fun x : Index × Index => (BitVec.ofNat 8 (x.1.toNat + x.2.toNat * 16) : Byte) := by
  rw [nibbles_pairs]
  refine List.map_congr_left fun x hx => ?_
  rw [← nibble_byte x.1 x.2 (h x hx).1 (h x hx).2, BitVec.ofNat_toNat, BitVec.setWidth_eq]

/-- Settles O49: an odd length fails the length rule; pairs have even length, and each gives one byte. -/
theorem packTileNibbles : Obligations.PackTileNibbles := by
  refine fun t s ht => ⟨fun d hs hodd => ?_, fun pairs hs hrange => ?_⟩
  · apply answers_of_responseOf
    rw [hs, answerOf_packTile_nibble ht, decide_eq_false hodd, lengthRule_false]
    rfl
  · have hinput : s.input = (pairs.flatMap fun x => [x.1, x.2]).map .index := by
      rw [hs, List.map_flatMap]
      rfl
    apply answers_of_responseOf
    rw [hinput, answerOf_packTile_nibble ht, decide_eq_true (length_pairs_even pairs), lengthRule_true,
      indexInRange_pairs hrange, precondition_true, nibbles_pairs_toNat hrange, respondBytes, List.map_map]
    rfl

/-! ### Sprite bytes -/

/-- `pce_sprite` has no read direction, whatever the depth. -/
theorem answerOf_unpackTile_sprite (bpp : Nat) (b : List Byte) :
    answerOf (.unpackTile (.real .pceSprite) bpp) (b.map .byte) = .raise .unsupported :=
  takeBytes_map b _

/-- Settles O56: the mode is refused before the depth and the bytes are looked at. -/
theorem unpackSpriteIsUnsupported : Obligations.UnpackSpriteIsUnsupported := by
  intro bpp b s hs
  apply answers_of_responseOf
  rw [hs, answerOf_unpackTile_sprite]
  rfl

end Sys2Proof.Machine

/-! PROOFS. Exceptions (60_exceptions.md): a failure returns nothing and changes nothing else (R246). -/

namespace Sys2Proof.Machine

/-- A step that answers a request ends it and adds the response of its answer; the host's other requests and earlier
responses stay as they are. -/
theorem step_eq_next_iff_responseOf {req : Request} {rest : List Request} {rs : List Response} {t : State} :
    step ⟨none, req :: rest, rs⟩ = .next t ↔ ∃ r, responseOf (answerTo req) = some r ∧ t = ⟨none, rest, r :: rs⟩ := by
  rw [step_of_script]
  exact deliver_eq_next

/-- Settles O11: the response added is that of the request's answer, and an answer that fails has an empty output. -/
theorem failureReturnsNothing : Obligations.FailureReturnsNothing := by
  intro req rest rs t hstep
  obtain ⟨r, hr, ht⟩ := step_eq_next_iff_responseOf.1 hstep
  exact ⟨r, ht, out_of_failure hr⟩

end Sys2Proof.Machine

/-! PROOFS. Encoding (30_encoding.md sections 1 to 4): decode and encode undo each other (R71, R74, R76), and which
words spell no operation (R80). -/

namespace Sys2Proof.Machine

/-! ### Decode of encode -/

/-- Every operation stands in the row of R74 that its code selects. -/
theorem row_of_instr (i : Instr) : Laws.Row.Statement i := by
  cases i with
  | defaultBpp m => exact Laws.Row.defaultBpp m
  | allowedBpp m bpp => exact Laws.Row.allowedBpp m bpp
  | defaultTileSize m => exact Laws.Row.defaultTileSize m
  | maxTileCount m => exact Laws.Row.maxTileCount m
  | tileWidthAllowed m width => exact Laws.Row.tileWidthAllowed m width
  | tileHeightAllowed m height => exact Laws.Row.tileHeightAllowed m height
  | tileFlippingAllowed m => exact Laws.Row.tileFlippingAllowed m
  | defaultMapSize m => exact Laws.Row.defaultMapSize m
  | defaultPaletteCount m => exact Laws.Row.defaultPaletteCount m
  | col0IsShared m => exact Laws.Row.col0IsShared m
  | col0IsSharedForSprite m => exact Laws.Row.col0IsSharedForSprite m
  | reduceColor m => exact Laws.Row.reduceColor m
  | reduceColors m => exact Laws.Row.reduceColors m
  | reduceColorsSet m => exact Laws.Row.reduceColorsSet m
  | normalizeColor m => exact Laws.Row.normalizeColor m
  | normalizeColors m => exact Laws.Row.normalizeColors m
  | packColors m => exact Laws.Row.packColors m
  | unpackColors m => exact Laws.Row.unpackColors m
  | packTile m bpp => exact Laws.Row.packTile m bpp
  | unpackTile m bpp => exact Laws.Row.unpackTile m bpp

/-- Settles O1: the fields of the word are read back, and the row of the operation's code builds the operation. -/
theorem decodeOfEncode : Obligations.DecodeOfEncode := by
  intro i hwf
  obtain ⟨form, hform, harg⟩ := row_of_instr i
  exact decode_encode_of_row hform (harg hwf)

/-! ### Encode of decode -/

/-- Every operation a row builds has this code and the operands it was built from. -/
def BuildsFrom (op : BitVec 8) : OpForm → Prop
  | .plain build => ∀ m, (build m).op = op ∧ (build m).mode = m ∧ (build m).arg = 0
  | .withArg build => ∀ m n, (build m n).op = op ∧ (build m n).mode = m ∧ (build m n).arg = n

/-- The row a code selects builds operations of that code: one case per row of R74. -/
theorem buildsFrom_of_opForm {op : BitVec 8} {form : OpForm} (h : opForm op = some form) : BuildsFrom op form := by
  unfold opForm at h
  split at h <;> cases h
  all_goals
    rename_i hcode
    simp only [BuildsFrom]
    intros
    exact ⟨(BitVec.eq_of_toNat_eq hcode).symm, rfl, rfl⟩

/-- Reading `arg` loses nothing: the operation has the row's code, the mode, and `arg` as its scalar operand. -/
theorem operands_of_readArg {op : BitVec 8} {form : OpForm} {m : Mode} {arg : BitVec 16} {i : Instr}
    (hform : BuildsFrom op form) (h : readArg form m arg = .ok i) :
    i.op = op ∧ i.mode = m ∧ i.arg = arg.toNat := by
  cases form with
  | plain build =>
    obtain ⟨hop, hmode, harg⟩ := hform m
    by_cases hzero : arg = 0
    · obtain rfl : build m = i := by simpa [readArg, hzero] using h
      exact ⟨hop, hmode, by rw [harg, hzero]; rfl⟩
    · rw [readArg, if_neg hzero] at h
      cases h
  | withArg build =>
    obtain rfl : build m arg.toNat = i := by simpa [readArg] using h
    exact hform m arg.toNat

/-- Settles O2: each of the four fields of a word that decodes is the field of its operation. -/
theorem encodeOfDecode : Obligations.EncodeOfDecode := by
  intro w i h
  obtain ⟨hzero, form, hform, m, hmode, hread⟩ := decode_eq_ok.1 h
  obtain ⟨hop, rfl, harg⟩ := operands_of_readArg (buildsFrom_of_opForm hform) hread
  constructor
  · simpa [Instr.wellFormed, harg] using (argField w).isLt
  · calc encode i = opField w ++ zeroField w ++ modeField w ++ argField w := by
          rw [encode, hop, hzero, codeOfMode_of_modeOfCode hmode, harg, BitVec.ofNat_toNat, BitVec.setWidth_eq]
      _ = w := word_of_fields w

/-! ### Words that spell no operation -/

/-- Whether a row has an `arg` column. -/
def takesArg : OpForm → Bool
  | .plain _ => false
  | .withArg _ => true

/-- `arg` is rejected exactly where it is not 0 and the row has no such column (R76 (4)). -/
theorem readArg_reject_iff {form : OpForm} {m : Mode} {arg : BitVec 16} :
    (∃ why, readArg form m arg = .reject why) ↔ takesArg form = false ∧ arg ≠ 0 := by
  cases form with
  | plain build =>
    by_cases hzero : arg = 0
    · simp [readArg, hzero]
    · exact ⟨fun _ => ⟨rfl, hzero⟩, fun _ => ⟨.argNotZero, if_neg hzero⟩⟩
  | withArg build => simp [readArg, takesArg]

/-- A word is rejected at the first of the four steps of R76 that it fails. -/
theorem decode_reject_iff {w : CmdWord} :
    (∃ why, decode w = .reject why) ↔
      zeroField w ≠ 0 ∨ opForm (opField w) = none ∨ modeOfCode (modeField w) = none ∨
        (opForm (opField w)).any takesArg = false ∧ argField w ≠ 0 := by
  unfold decode
  by_cases hz : zeroField w ≠ 0
  · simp only [if_pos hz, Decoding.reject.injEq, exists_eq', true_iff]
    exact .inl hz
  · rw [if_neg hz]
    cases hf : opForm (opField w) with
    | none => simp
    | some form =>
      cases hm : modeOfCode (modeField w) with
      | none => simp
      | some m => simpa [not_not.1 hz] using readArg_reject_iff

/-- The codes of R74. -/
theorem opForm_eq_none_iff {op : BitVec 8} :
    opForm op = none ↔ op.toNat ∉ [0x10, 0x11, 0x12, 0x13, 0x14, 0x15, 0x16, 0x17, 0x18, 0x19, 0x1A, 0x20, 0x21, 0x22,
      0x30, 0x31, 0x40, 0x41, 0x50, 0x51] := by
  rw [← Option.isNone_iff_eq_none]
  revert op
  decide

/-- The codes of R74 whose row has no `arg` column, or that have no row. -/
theorem any_takesArg_eq_false_iff {op : BitVec 8} :
    (opForm op).any takesArg = false ↔ op.toNat ∉ [0x11, 0x14, 0x15, 0x50, 0x51] := by
  revert op
  decide

/-- Settles O4: each of the four steps, read off the word by arithmetic. -/
theorem rejectedWordsAreTheInvalidOnes : Obligations.RejectedWordsAreTheInvalidOnes := by
  intro w
  have hzero : zeroField w ≠ 0 ↔ w.toNat / 2 ^ 20 % 16 ≠ 0 := by
    rw [← zeroField_toNat, ne_eq, ← BitVec.toNat_inj]
    rfl
  have harg : argField w ≠ 0 ↔ w.toNat % 2 ^ 16 ≠ 0 := by
    rw [← argField_toNat, ne_eq, ← BitVec.toNat_inj]
    rfl
  rw [decode_reject_iff, hzero, opForm_eq_none_iff, modeOfCode_eq_none, any_takesArg_eq_false_iff, harg, opField_toNat,
    modeField_toNat]

/-- Settles O3: the twelve words, decoded. -/
theorem exampleWordsDecode : Obligations.ExampleWordsDecode :=
  ⟨rfl, rfl, rfl, rfl, rfl, rfl, rfl, rfl, rfl, rfl, rfl, rfl⟩

end Sys2Proof.Machine

/-! PROOFS. The machine (10_state.md, 20_memory.md, 60_exceptions.md): which operation a step runs (R76, R77), what
every step keeps (R20, R245, R246), that requests commute (R54), and the first two checks of every operation (R248). -/

namespace Sys2Proof.Machine

/-! ### What the statements about an operation say of its answer -/

theorem statusOf_ne_ok (kind : Failure) : statusOf kind ≠ .ok := by cases kind <;> decide

/-- An operation answers `OK` exactly when its answer is to respond. -/
theorem answers_ok_iff {i : Instr} {s : State} {out : Output} :
    Answers i s .ok out ↔ answerOf i s.input = .respond out := by
  rw [Answers, exec_eq_next]
  constructor
  · rintro ⟨r, hr, hstate⟩
    obtain rfl : (⟨.ok, out⟩ : Response) = r := by simpa using hstate
    cases hanswer : answerOf i s.input with
    | respond out' => simpa [hanswer, responseOf] using hr
    | raise kind =>
      rw [hanswer] at hr
      exact absurd (congrArg Response.status (Option.some.inj hr)) (statusOf_ne_ok kind)
    | refuse why => simp [hanswer, responseOf] at hr
  · intro h
    exact ⟨_, by rw [h]; rfl, rfl⟩

/-- An operation whose answer is to raise a failure fails with its status. -/
theorem fails_of_raise {i : Instr} {s : State} {kind : Failure} (h : answerOf i s.input = .raise kind) :
    Fails i s (statusOf kind) :=
  answers_of_responseOf (by rw [h]; rfl)

/-- `answers_ok_iff` on a known input buffer. -/
theorem answers_ok_of_input {i : Instr} {s : State} {input : List Element} {out : Output} (hs : s.input = input)
    (h : answerOf i input = .respond out) : Answers i s .ok out :=
  answers_ok_iff.2 (hs ▸ h)

/-- `fails_of_raise` on a known input buffer. -/
theorem fails_of_input {i : Instr} {s : State} {input : List Element} {kind : Failure} (hs : s.input = input)
    (h : answerOf i input = .raise kind) : Fails i s (statusOf kind) :=
  fails_of_raise (hs ▸ h)

/-- `exec_eq_refused` on a known input buffer. -/
theorem refused_of_input {i : Instr} {s : State} {input : List Element} {why : Refusal} (hs : s.input = input)
    (h : answerOf i input = .refuse why) : exec i s = .refused why :=
  exec_eq_refused.2 (hs ▸ h)

/-! ### The operation a step runs -/

theorem answerTo_of_decoded {req : Request} {i : Instr} (h : decodeRequest req.cmd req.input = .ok i) :
    answerTo req = answerOf i req.input := by
  simp only [answerTo, h]

theorem answerTo_of_rejected {req : Request} {why : Reject} (h : decodeRequest req.cmd req.input = .reject why) :
    answerTo req = .raise .invalid := by
  simp only [answerTo, h]

/-- Settles O5: the step delivers the answer to the request, which is the answer of the decoded operation. -/
theorem stepExecutesDecodedRequest : Obligations.StepExecutesDecodedRequest := by
  intro req i h
  constructor
  · intro rest rs
    rw [step_of_script, answerTo_of_decoded h, exec_eq_deliver, input_of_request]
  · intro script rs
    rw [step_of_request, answerTo_of_decoded h, exec_eq_deliver, input_of_request]

/-- Settles O6: the answer to a request that does not decode is to raise `INVALID`. -/
theorem undecodedRequestIsInvalid : Obligations.UndecodedRequestIsInvalid := by
  intro req why h
  constructor
  · intro rest rs
    rw [step_of_script, answerTo_of_rejected h]
    rfl
  · intro script rs
    rw [step_of_request, answerTo_of_rejected h]
    rfl

/-- Settles O8: with no request in flight and none in the script there is nothing to fetch. -/
theorem resetIsIdle : Obligations.ResetIsIdle := ⟨rfl, step_idle⟩

/-! ### Placing a command word (log entry 2) -/

/-- A command word is its own table word. -/
theorem ofNat_tableWord (w : CmdWord) : BitVec.ofNat 32 (tableWord 32 w.toNat) = w := by
  rw [tableWord, Nat.mod_eq_of_lt w.isLt, BitVec.ofNat_toNat, BitVec.setWidth_eq]

theorem decodeTableWord_toNat {w : CmdWord} {i : Instr} (h : decode w = .ok i) :
    decodeTableWord 32 w.toNat = some i := by
  have hlt : tableWord 32 w.toNat < 2 ^ 32 := Nat.mod_lt _ (Nat.two_pow_pos 32)
  rw [decodeTableWord, if_pos hlt, ofNat_tableWord, h]

/-- The buffer made to fit is one the operation takes. -/
theorem accepts_fittingInput {cmd : CmdWord} {i : Instr} (h : decode cmd = .ok i) (input : List Element) :
    i.inputShape.accepts (fittingInput cmd input) = true := by
  unfold fittingInput
  rw [h]
  dsimp only
  split
  · assumption
  · exact accepts_leastInput i.inputShape

/-- A buffer the operation takes is kept. -/
theorem fittingInput_of_accepts {cmd : CmdWord} {i : Instr} {input : List Element} (h : decode cmd = .ok i)
    (haccepts : i.inputShape.accepts input = true) : fittingInput cmd input = input := by
  simp only [fittingInput, h, haccepts, if_true]

/-- A request with the word of a well-formed operation and a buffer it takes runs that operation. -/
theorem step_of_encode {i : Instr} {input : List Element} (hwf : i.wellFormed = true)
    (haccepts : i.inputShape.accepts input = true) (rest : List Request) (rs : List Response) :
    step ⟨none, ⟨encode i, input⟩ :: rest, rs⟩ = exec i ⟨some ⟨encode i, input⟩, rest, rs⟩ := by
  have hdecode := decodeRequest_eq_ok.2 ⟨decodeOfEncode i hwf, haccepts⟩
  exact (stepExecutesDecodedRequest ⟨encode i, input⟩ i hdecode).1 rest rs

theorem withFetchWord_idle (w : CmdWord) (rs : List Response) :
    State.withFetchWord ⟨none, [], rs⟩ 32 w.toNat = ⟨none, [⟨w, fittingInput w []⟩], rs⟩ := by
  simp only [State.withFetchWord, Request.withWord, ofNat_tableWord]

theorem withFetchWord_script (w cmd : CmdWord) (input : List Element) (rest : List Request) (rs : List Response) :
    State.withFetchWord ⟨none, ⟨cmd, input⟩ :: rest, rs⟩ 32 w.toNat =
      ⟨none, ⟨w, fittingInput w input⟩ :: rest, rs⟩ := by
  simp only [State.withFetchWord, Request.withWord, ofNat_tableWord]

/-- Settles O15: the placed word is the encoding, which decodes to the operation, and its buffer is made to fit. -/
theorem placedWordIsExecuted : Obligations.PlacedWordIsExecuted := by
  intro i hwf
  have hdecode := decodeOfEncode i hwf
  refine ⟨decodeTableWord_toNat hdecode, fun rs => ?_, fun cmd input rest rs haccepts => ?_⟩
  · have hfits := accepts_fittingInput hdecode []
    refine ⟨fittingInput (encode i) [], hfits, ?_⟩
    rw [withFetchWord_idle, step_of_encode hwf hfits]
  · rw [withFetchWord_script, fittingInput_of_accepts hdecode haccepts, step_of_encode hwf haccepts]

/-! ### What every step keeps -/

theorem Response.wellFormed_iff {r : Response} :
    r.wellFormed = true ↔ (r.status = .ok ∨ r.out = .seq []) ∧ r.status ≠ .internal ∧ r.out.wellFormed = true := by
  simp [Response.wellFormed, and_assoc]

/-- A step that answers a next state stays idle, or ends a request and adds one well-formed response. -/
theorem step_eq_next_cases {s t : State} (h : step s = .next t) :
    (s.request = none ∧ t = s) ∨
      ∃ r : Response, r.wellFormed = true ∧ t.request = none ∧ t.responses = r :: s.responses := by
  obtain ⟨hnone, -, hidle⟩ | ⟨req, taken, hresponses, hdeliver⟩ := step_cases s
  · rw [hidle] at h
    exact .inl ⟨hnone, (Host.Outcome.next.inj h).symm⟩
  · obtain ⟨r, hr, rfl⟩ := deliver_eq_next.1 (hdeliver ▸ h)
    exact .inr ⟨r, wellFormed_of_good (good_answerTo req) hr, rfl, by rw [hresponses]⟩

/-- Settles O9: an idle step changes nothing, and every other one ends its request and adds a well-formed response. -/
theorem stepKeepsInvariant : Obligations.StepKeepsInvariant := by
  intro s t hinv hstep
  obtain ⟨-, rfl⟩ | ⟨r, hr, hnone, hresponses⟩ := step_eq_next_cases hstep
  · exact hinv
  · refine ⟨hnone, ?_⟩
    rw [hresponses]
    exact List.forall_mem_cons.2 ⟨hr, hinv.2⟩

/-- Settles O10: no request is in flight, and there is no response to check. -/
theorem invariantHoldsAtReset : Obligations.InvariantHoldsAtReset := ⟨reset_request, by simp⟩

/-- Settles O12: the response added is well formed, and a step that adds none is idle. -/
theorem noRequestYieldsInternal : Obligations.NoRequestYieldsInternal := by
  intro s t r hstep hadded
  obtain ⟨-, rfl⟩ | ⟨r', hr', -, hresponses⟩ := step_eq_next_cases hstep
  · exact absurd hadded.symm (List.cons_ne_self r t.responses)
  · obtain ⟨rfl, -⟩ := List.cons.inj (hadded.symm.trans hresponses)
    obtain ⟨-, hne, -⟩ := Response.wellFormed_iff.1 hr'
    exact hne

/-! ### Requests commute -/

/-- The response to a request; `INVALID` stands where the request is refused and has none. -/
def responseTo (req : Request) : Response := (responseOf (answerTo req)).getD ⟨.invalid, .seq []⟩

theorem responseOf_eq_some_responseTo {req : Request} {r : Response} (h : responseOf (answerTo req) = some r) :
    responseOf (answerTo req) = some (responseTo req) := by
  simp [responseTo, h]

theorem run_succ_of_next {s t : State} (h : step s = .next t) (k : Nat) :
    Sys2Proof.core.run (k + 1) s = Sys2Proof.core.run k t := by
  simp only [Host.Core.run, Host.Check.core_step, h]

theorem run_succ_of_refused {s : State} {why : Refusal} (h : step s = .refused why) (k : Nat) :
    Sys2Proof.core.run (k + 1) s = .refused why := by
  simp only [Host.Core.run, Host.Check.core_step, h]

/-- A script is answered to its end exactly when no request of it is refused, and then each request has added its own
response. -/
theorem run_script_iff {script : List Request} {rs : List Response} {t : State} :
    Sys2Proof.core.run script.length ⟨none, script, rs⟩ = .next t ↔
      (∀ req ∈ script, responseOf (answerTo req) = some (responseTo req)) ∧
        t = ⟨none, [], (script.map responseTo).reverse ++ rs⟩ := by
  induction script generalizing rs with
  | nil =>
    constructor
    · intro h
      exact ⟨by simp, (Host.Outcome.next.inj h).symm⟩
    · rintro ⟨-, rfl⟩
      rfl
  | cons req script ih =>
    rw [List.forall_mem_cons, List.length_cons]
    obtain ⟨r, hr⟩ | ⟨why, hwhy⟩ := responseOf_or_refuse (answerTo req)
    · have hres := responseOf_eq_some_responseTo hr
      rw [run_succ_of_next (step_eq_next_of_responseOf hres script rs), ih]
      simp [hres]
    · rw [run_succ_of_refused (step_eq_refused_of_answerTo hwhy script rs), hwhy]
      simp [responseOf]

/-- Settles O14: whether a script is answered to its end, and each request's response, do not depend on the order. -/
theorem requestsCommuteInEveryOrder : Obligations.RequestsCommuteInEveryOrder := by
  intro script rs t hrun
  obtain ⟨hanswered, ht⟩ := run_script_iff.1 hrun
  refine ⟨responseTo, ht, fun script' hperm => ?_⟩
  exact run_script_iff.2 ⟨fun req hreq => hanswered req (hperm.mem_iff.1 hreq), rfl⟩

/-! ### A buffer of the wrong shape -/

theorem takeNothing_invalid {input : List Element} {go : Answer} (h : input ≠ []) :
    takeNothing input go = .raise .invalid := by
  obtain ⟨hin, -⟩ | ⟨-, hgo⟩ := takeNothing_cases input go
  · exact absurd hin h
  · exact hgo

theorem takeColor_invalid {input : List Element} {go : Color → Answer} (h : ¬ ∃ c, input = [.color c]) :
    takeColor input go = .raise .invalid := by
  obtain ⟨c, hin, -⟩ | ⟨-, hgo⟩ := takeColor_cases input go
  · exact absurd ⟨c, hin⟩ h
  · exact hgo

theorem takeColors_invalid {input : List Element} {go : List Color → Answer} (h : ¬ ∃ cs, input = List.map .color cs) :
    takeColors input go = .raise .invalid := by
  obtain ⟨cs, hin, -⟩ | ⟨-, hgo⟩ := takeColors_cases input go
  · exact absurd ⟨cs, hin⟩ h
  · exact hgo

theorem takeColorSet_invalid {input : List Element} {go : List Color → Answer}
    (h : ¬ ∃ cs, input = List.map .color cs ∧ cs.Nodup) : takeColorSet input go = .raise .invalid := by
  obtain ⟨cs, hin, hnodup, -⟩ | ⟨-, hgo⟩ := takeColorSet_cases input go
  · exact absurd ⟨cs, hin, hnodup⟩ h
  · exact hgo

theorem takeBytes_invalid {input : List Element} {go : List Byte → Answer} (h : ¬ ∃ bs, input = List.map .byte bs) :
    takeBytes input go = .raise .invalid := by
  obtain ⟨bs, hin, -⟩ | ⟨-, hgo⟩ := takeBytes_cases input go
  · exact absurd ⟨bs, hin⟩ h
  · exact hgo

theorem takeIndexes_invalid {input : List Element} {go : List Index → Answer} (h : ¬ ∃ d, input = List.map .index d) :
    takeIndexes input go = .raise .invalid := by
  obtain ⟨d, hin, -⟩ | ⟨-, hgo⟩ := takeIndexes_cases input go
  · exact absurd ⟨d, hin⟩ h
  · exact hgo

/-- Settles O7: taking the operand is the first thing an operation does; one case per shape. -/
theorem wrongShapeIsInvalid : Obligations.WrongShapeIsInvalid := by
  intro i s h
  refine fails_of_raise (kind := .invalid) ?_
  cases i with
  | reduceColor m | normalizeColor m => exact takeColor_invalid h
  | reduceColors m | normalizeColors m | packColors m => exact takeColors_invalid h
  | reduceColorsSet m => exact takeColorSet_invalid h
  | unpackColors m | unpackTile m bpp => exact takeBytes_invalid h
  | packTile m bpp => exact takeIndexes_invalid h
  | _ => exact takeNothing_invalid h

/-! ### Mode `none` -/

/-- With mode `none` a buffer of the right shape is `UNSUPPORTED`, whatever the other operands are. -/
theorem answerOf_none {i : Instr} {input : List Element} (hmode : i.mode = .none)
    (haccepts : i.inputShape.accepts input = true) : answerOf i input = .raise .unsupported := by
  cases i with
  | reduceColor m | normalizeColor m =>
    obtain rfl : m = .none := hmode
    obtain ⟨c, rfl⟩ := accepts_oneColor.1 haccepts
    rfl
  | reduceColors m | normalizeColors m | packColors m =>
    obtain rfl : m = .none := hmode
    obtain ⟨cs, rfl⟩ := accepts_colors.1 haccepts
    exact takeColors_map cs _
  | reduceColorsSet m =>
    obtain rfl : m = .none := hmode
    obtain ⟨cs, rfl, hnodup⟩ := accepts_colorSet.1 haccepts
    exact takeColorSet_map hnodup _
  | unpackColors m | unpackTile m bpp =>
    obtain rfl : m = .none := hmode
    obtain ⟨bs, rfl⟩ := accepts_bytes.1 haccepts
    exact takeBytes_map bs _
  | packTile m bpp =>
    obtain rfl : m = .none := hmode
    obtain ⟨d, rfl⟩ := accepts_indexes.1 haccepts
    exact takeIndexes_map d _
  | _ m =>
    obtain rfl : m = .none := hmode
    obtain rfl := accepts_nothing.1 haccepts
    rfl

/-- Settles O16: the mode is looked at as soon as the operand is taken. -/
theorem modeNoneIsUnsupported : Obligations.ModeNoneIsUnsupported := fun _ _ hmode haccepts =>
  fails_of_raise (answerOf_none hmode haccepts)

/-! ### Parameters -/

/-- Settles O17: each open constant was brought into its domain. -/
theorem parametersLieInTheirDomains : Obligations.ParametersLieInTheirDomains where
  defaultBppSnes := defaultBppSnes_mem
  defaultBppGba := defaultBppGba_mem
  maxTileCount t := (Config.maxTileCount t).isLt
  defaultMapSize _ := (ite_eq_or_eq _ 32 0).symm
  defaultPaletteCount t := ⟨Nat.le_add_left 1 _, (Config.paletteCountLessOne t).isLt⟩
  mdLayout := mdLayout_valid
  pceLayout := pceLayout_valid
  layoutsDiffer := layouts_differ

end Sys2Proof.Machine

/-! PROOFS. The mode capability table (40_mode_capability_table.md section 2), its remaining rows, and that the table
agrees with itself (R112). -/

namespace Sys2Proof.Machine

/-- Settles O18: the two open depths are this machine's parameters, which lie in their domains. -/
theorem defaultBppAnswers : Obligations.DefaultBppAnswers := by
  refine ⟨defaultBppSnes, defaultBppGba, by simpa using defaultBppSnes_mem, by simpa using defaultBppGba_mem,
    fun t s hs => ?_⟩
  have hrow := (answers_of_query (op := .defaultBpp) (fun _ => rfl) (fun _ => rfl) hs).2 t
  cases t <;> exact hrow

/-- Settles O20: only `pce_sprite` has 16 pixel tiles. -/
theorem defaultTileSizeAnswers : Obligations.DefaultTileSizeAnswers :=
  ⟨fun m => opField_encode (.defaultTileSize m), fun _ hs =>
    answers_of_query (fun _ => rfl) (fun t => by cases t <;> rfl) hs⟩

/-- Outside `snes_mode7` the map size is the open cell, 32 or 0. -/
theorem defaultMapSizeOf_params_of_ne {t : Target} (ht : t ≠ .snesMode7) :
    defaultMapSizeOf params t = 32 ∨ defaultMapSizeOf params t = 0 := by
  have hcell := (parametersLieInTheirDomains.defaultMapSize t).symm
  cases t with
  | snesMode7 => exact absurd rfl ht
  | _ => exact hcell

/-- Settles O21: the cells are the rows of this machine's parameters. -/
theorem openTableCellsAnswer : Obligations.OpenTableCellsAnswer := by
  refine ⟨fun t => BitVec.ofNat 32 (maxTileCountOf params t), defaultMapSizeOf params, defaultPaletteCountOf params,
    rfl, rfl, fun t => defaultMapSizeOf_params_of_ne, parametersLieInTheirDomains.defaultPaletteCount,
    fun t s hs => ⟨?_, ?_, ?_⟩⟩
  · exact (answers_of_query (op := .maxTileCount) (fun _ => rfl) (fun _ => rfl) hs).2 t
  · exact (answers_of_query (op := .defaultMapSize) (fun _ => rfl) (fun _ => rfl) hs).2 t
  · exact (answers_of_query (op := .defaultPaletteCount) (fun _ => rfl) (fun _ => rfl) hs).2 t

theorem dimAllowed_iff {v : Nat} {t : Target} : dimAllowed v t = true ↔ v ∈ allowedDims t := List.contains_iff_mem

/-- `TILE_WIDTH_ALLOWED` and `TILE_HEIGHT_ALLOWED` answer membership in the allowed dimensions. -/
theorem answersOk_tileDimension {s : State} (hs : s.input = []) (v : Nat) (t : Target) :
    AnswersOk (.tileWidthAllowed (.real t) v) s [.word (if v ∈ allowedDims t then 1 else 0)] ∧
      AnswersOk (.tileHeightAllowed (.real t) v) s [.word (if v ∈ allowedDims t then 1 else 0)] :=
  ⟨(answers_of_query (op := fun m => .tileWidthAllowed m v) (fun _ => rfl)
      (fun _ => ofNat_boolWord dimAllowed_iff) hs).2 t,
    (answers_of_query (op := fun m => .tileHeightAllowed m v) (fun _ => rfl)
      (fun _ => ofNat_boolWord dimAllowed_iff) hs).2 t⟩

/-- Settles O22: both operations answer membership in the mode's allowed dimensions, which the statement writes out per
mode. -/
theorem tileDimensionAnswers : Obligations.TileDimensionAnswers := by
  intro v t s hs
  have hrows := answersOk_tileDimension hs v t
  cases t <;> exact hrows

/-- Settles O25: the row is true for every real mode. -/
theorem col0IsSharedForSpriteAnswers : Obligations.Col0IsSharedForSpriteAnswers := fun t _ hs =>
  (answers_of_query (op := .col0IsSharedForSprite) (word := fun _ => 1) (fun _ => rfl)
    (fun t => by cases t <;> rfl) hs).2 t

/-! ### The table agrees with itself -/

/-- `ALLOWED_BPP` answers 1 exactly for the depths a mode allows. -/
theorem answersOk_allowedBpp_one_iff {s : State} (hs : s.input = []) {t : Target} {d : Nat} :
    AnswersOk (.allowedBpp (.real t) d) s [.word 1] ↔ d ∈ allowedBpps t := by
  have hanswer := (answers_of_query (op := fun m => .allowedBpp m d) (fun _ => rfl)
    (fun _ => ofNat_boolWord bppAllowed_iff) hs).2 t
  constructor
  · intro hone
    by_contra hnot
    rw [AnswersOk, answers_ok_iff] at hone hanswer
    simp [hone, hnot] at hanswer
  · intro hmem
    simpa only [if_pos hmem] using hanswer

/-- The default depth of a mode is one it allows. -/
theorem defaultBppOf_mem_allowedBpps (t : Target) : defaultBppOf params t ∈ allowedBpps t := by
  cases t with
  | snes => simpa [allowedBpps, defaultBppOf] using parametersLieInTheirDomains.defaultBppSnes
  | gba => simpa [allowedBpps, defaultBppOf] using parametersLieInTheirDomains.defaultBppGba
  | _ => decide

/-- The default tile size of a mode is a dimension it allows. -/
theorem defaultTileSizeOf_mem_allowedDims (t : Target) : defaultTileSizeOf t ∈ allowedDims t := by
  cases t <;> decide

theorem defaultTileSizeOf_lt (t : Target) : defaultTileSizeOf t < 65536 := by cases t <;> decide

/-- Settles O26: the default depth and tile size lie in the mode's lists, and every listed depth is even and small. -/
theorem tableIsSelfConsistent : Obligations.TableIsSelfConsistent := by
  refine fun t s hs => ⟨⟨defaultBppOf params t, ?_, ?_, ?_⟩, ⟨defaultTileSizeOf t, ?_, defaultTileSizeOf_lt t, ?_⟩, ?_⟩
  · exact (answers_of_query (op := .defaultBpp) (fun _ => rfl) (fun _ => rfl) hs).2 t
  · obtain ⟨-, hle⟩ := allowedBpps_even (defaultBppOf_mem_allowedBpps t)
    omega
  · exact (answersOk_allowedBpp_one_iff hs).2 (defaultBppOf_mem_allowedBpps t)
  · exact (answers_of_query (op := .defaultTileSize) (fun _ => rfl) (fun _ => rfl) hs).2 t
  · have hdim := answersOk_tileDimension hs (defaultTileSizeOf t) t
    rwa [if_pos (defaultTileSizeOf_mem_allowedDims t)] at hdim
  · exact fun d hone => allowedBpps_even ((answersOk_allowedBpp_one_iff hs).1 hone)

end Sys2Proof.Machine

/-! PROOFS. The color quantizer (41_color_quantizer.md): the gb level by its thresholds (R136), single colors and sets
(R132, R134), and the laws of `reduce` (R137). -/

namespace Sys2Proof.Machine

/-! ### The gb level -/

/-- The truncated luma is at most `n` exactly when the weighted sum is below `1000 * (n + 1)`. -/
theorem div_le_iff_lt {S n : Nat} : S / 1000 ≤ n ↔ S < 1000 * (n + 1) := by omega

/-- The truncating reading, on the weighted sum itself. -/
theorem levelOfSum_floor (S : Nat) :
    levelOfSum .floor S = if S < 65000 then 0 else if S < 129000 then 1 else if S < 193000 then 2 else 3 := by
  simp only [levelOfSum, div_le_iff_lt]

/-- A threshold of the two readings agrees on every sum outside the band between them. -/
theorem lt_iff_le_of_not_between {S m n : Nat} (hmn : m < n) (h : ¬ (m < S ∧ S < n)) : S < n ↔ S ≤ m := by omega

/-- Outside the ambiguity band both readings give one level. -/
theorem levelOfSum_floor_eq_exact {S : Nat}
    (h : ¬ (64000 < S ∧ S < 65000 ∨ 128000 < S ∧ S < 129000 ∨ 192000 < S ∧ S < 193000)) :
    levelOfSum .floor S = levelOfSum .exact S := by
  simp only [not_or] at h
  obtain ⟨h1, h2, h3⟩ := h
  rw [levelOfSum_floor]
  simp only [levelOfSum, lt_iff_le_of_not_between (by decide) h1,
    lt_iff_le_of_not_between (by decide) h2, lt_iff_le_of_not_between (by decide) h3]

/-- The exact reading's level is the machine's, under the exact reading or outside the band. -/
theorem gbLevel_eq_exact {p : Params} {r g b : Byte}
    (h : p.lumaRounding = .exact ∨ ¬ (64000 < lumaSum r g b ∧ lumaSum r g b < 65000 ∨
      128000 < lumaSum r g b ∧ lumaSum r g b < 129000 ∨ 192000 < lumaSum r g b ∧ lumaSum r g b < 193000)) :
    gbLevel p r g b = levelOfSum .exact (lumaSum r g b) := by
  rw [gbLevel]
  cases hrounding : p.lumaRounding with
  | exact => rfl
  | floor => exact levelOfSum_floor_eq_exact (h.resolve_left (by simp [hrounding]))

/-- Settles O28: the exact reading is the thresholds themselves, and the truncating one differs inside the band only. -/
theorem gbLevelByThresholds : Obligations.GbLevelByThresholds := by
  intro p r g b S hS
  obtain rfl : S = lumaSum r g b := hS
  refine ⟨lumaSum_le r g b, gbLevel_eq_exact, fun hfloor => ?_⟩
  rw [gbLevel, hfloor, levelOfSum_floor]

/-! ### Single colors and sets -/

theorem answerOf_reduceColor (t : Target) (c : Color) :
    answerOf (.reduceColor (.real t)) [.color c] = respondColors [reduce params t c] := rfl

/-- Settles O29: one color is taken, and its reduction is the output. -/
theorem reduceColorAnswers : Obligations.ReduceColorAnswers := fun t c _ hs =>
  answers_ok_of_input hs (answerOf_reduceColor t c)

theorem answerOf_reduceColorsSet (t : Target) {cs : List Color} (h : cs.Nodup) :
    answerOf (.reduceColorsSet (.real t)) (cs.map .color) = respondSet (cs.map (reduce params t)) :=
  takeColorSet_map h _

/-- Settles O31: the output is the canonical form of the reductions, which depends on their set alone. -/
theorem reduceColorsSetAnswers : Obligations.ReduceColorsSetAnswers := by
  intro t cs s hs hnodup
  refine ⟨colorSet (cs.map (reduce params t)), answers_ok_of_input hs (answerOf_reduceColorsSet t hnodup),
    fun q => ?_, nodup_colorSet _, ?_, fun ds s' hperm hs' => ?_⟩
  · simp only [mem_colorSet, List.mem_map, eq_comm]
  · simpa using length_colorSet_le (cs.map (reduce params t))
  · refine answers_ok_of_input hs' ?_
    rw [answerOf_reduceColorsSet t (hperm.nodup_iff.2 hnodup), respondSet,
      colorSet_eq_of_mem_iff fun q => (hperm.map (reduce params t)).mem_iff]

/-! ### Laws of `reduce` -/

/-- Both alphas a reduced color can have. -/
theorem reduce_alpha (p : Params) (t : Target) (c : Color) :
    (reduce p t c).a = if 0x80 ≤ c.a.toNat then opaqueMarker else p.tAlpha := by
  by_cases hopaque : 0x80 ≤ c.a.toNat
  · rw [if_pos hopaque]
    by_cases ht : t = .gb
    · rw [ht, reduce_gb p hopaque, grayColor]
    · rw [reduce_opaque p ht hopaque]
  · rw [if_neg hopaque, reduce_transparent p t (Nat.lt_of_not_le hopaque), transparent]

/-- A gb level is in range. -/
theorem inRange_grayColor (p : Params) (r g b : Byte) : inRange .gb (grayColor (gbLevel p r g b)) = true := by
  have hlevel : (gbLevel p r g b).toNat < 2 ^ channelWidth .gb :=
    Nat.lt_succ_of_le (levelOfSum_le p.lumaRounding (lumaSum r g b))
  exact inRange_iff.2 ⟨hlevel, hlevel, hlevel⟩

/-- Every reduced color is in range: a shift by `k(m)` leaves `w(m)` bits, and a gb level is at most 3. -/
theorem inRange_reduce (p : Params) (t : Target) (c : Color) : inRange t (reduce p t c) = true := by
  by_cases hopaque : 0x80 ≤ c.a.toNat
  · by_cases ht : t = .gb
    · rw [ht, reduce_gb p hopaque]
      exact inRange_grayColor p c.r c.g c.b
    · rw [reduce_opaque p ht hopaque]
      have hchannel := shiftRight_lt (width_add_shift t)
      exact inRange_iff.2 ⟨hchannel c.r, hchannel c.g, hchannel c.b⟩
  · rw [reduce_transparent p t (Nat.lt_of_not_le hopaque)]
    have hzero : (0 : Byte).toNat < 2 ^ channelWidth t := Nat.two_pow_pos _
    exact inRange_iff.2 ⟨hzero, hzero, hzero⟩

/-- A color reduced for `gb` is gray, the transparent sentinel included. -/
theorem isGray_reduce_gb (p : Params) (c : Color) : isGray (reduce p .gb c) = true := by
  by_cases hopaque : 0x80 ≤ c.a.toNat
  · rw [reduce_gb p hopaque]
    exact isGray_iff.2 ⟨rfl, rfl⟩
  · rw [reduce_transparent p .gb (Nat.lt_of_not_le hopaque)]
    exact isGray_iff.2 ⟨rfl, rfl⟩

theorem grayInGb_reduce (p : Params) (t : Target) (c : Color) : grayInGb t (reduce p t c) = true := by
  by_cases ht : t = .gb
  · rw [ht, grayInGb_gb]
    exact isGray_reduce_gb p c
  · exact grayInGb_of_ne ht _

/-- A reduced color is representable when its alpha is the opaque marker. -/
theorem representable_reduce (p : Params) (t : Target) {c : Color} (h : (reduce p t c).a = opaqueMarker) :
    representable t (reduce p t c) = true :=
  representable_iff.2 ⟨inRange_reduce p t c, h, grayInGb_reduce p t c⟩

/-- Settles O32: each law by the alpha decision and then the mode's family. -/
theorem reduceStaysInRange : Obligations.ReduceStaysInRange := by
  refine fun p t c => ⟨inRange_reduce p t c, isGray_reduce_gb p c, reduce_alpha p t c, fun halpha => ?_,
    fun htransparent t' c' htransparent' => ?_⟩
  · refine representable_reduce p t ?_
    rw [reduce_alpha, halpha, ite_self]
  · rw [reduce_transparent p t htransparent, reduce_transparent p t' htransparent']

end Sys2Proof.Machine

/-! PROOFS. The color normalizer (42_color_normalizer.md): what it answers and refuses (R152, R153, U6), and what
reduction and expansion do to each other (R155). -/

namespace Sys2Proof.Machine

/-! ### Answers and refusals -/

theorem answerOf_normalizeColor (t : Target) (q : Color) :
    answerOf (.normalizeColor (.real t)) [.color q] = requireQuantized t [q] (respondColors [normalize t q]) := rfl

theorem answerOf_normalizeColors (t : Target) (qs : List Color) :
    answerOf (.normalizeColors (.real t)) (qs.map .color) =
      requireQuantized t qs (respondColors (qs.map (normalize t))) :=
  takeColors_map qs _

theorem grayInGb_iff {t : Target} {q : Color} : grayInGb t q = true ↔ (t = .gb → isGray q = true) := by
  by_cases ht : t = .gb
  · simp [ht, grayInGb_gb]
  · simp [ht, grayInGb_of_ne]

/-- All that an operation behind the precondition on quantized colors does: it answers, or is refused for the range, or,
all colors in range, is refused for a color of `gb` that is not gray. -/
theorem requireQuantized_outcomes {i : Instr} {t : Target} {qs : List Color} {input elems : List Element} {s : State}
    (hi : answerOf i input = requireQuantized t qs (.respond (.seq elems))) (hs : s.input = input) :
    ((∀ q ∈ qs, inRange t q = true) → (t = .gb → ∀ q ∈ qs, isGray q = true) → AnswersOk i s elems) ∧
    ((∃ q ∈ qs, inRange t q = false) → exec i s = .refused .channelOutOfRange) ∧
    (t = .gb → (∀ q ∈ qs, inRange .gb q = true) → (∃ q ∈ qs, isGray q = false) →
      exec i s = .refused .colorNotGray) := by
  refine ⟨fun hrange hgray => answers_ok_of_input hs ?_, fun hout => refused_of_input hs ?_,
    fun ht hrange hnot => refused_of_input hs ?_⟩
  · rw [hi, requireQuantized_ok hrange fun q hq => grayInGb_iff.2 fun ht => hgray ht q hq]
  · rw [hi, requireQuantized_range hout]
  · subst ht
    rw [hi, requireQuantized_gray hrange hnot]

/-- Settles O34: both operations are the expansion behind the precondition on quantized colors. -/
theorem normalizeAnswers : Obligations.NormalizeAnswers := by
  constructor
  · intro t q s hs
    simpa using requireQuantized_outcomes (answerOf_normalizeColor t q) hs
  · intro t qs s hs
    exact requireQuantized_outcomes (answerOf_normalizeColors t qs) hs

/-! ### Reducing an expansion -/

theorem le_opaqueMarker : 0x80 ≤ opaqueMarker.toNat := by decide

/-- Settles O35: outside `gb`, shifting an in-range channel left by `k(m)` and right again gives it back. -/
theorem reduceUndoesNormalize : Obligations.ReduceUndoesNormalize := by
  intro p t q ht hrep
  obtain ⟨hrange, halpha, -⟩ := representable_iff.1 hrep
  obtain ⟨hr, hg, hb⟩ := inRange_iff.1 hrange
  have hwidth := width_add_shift t
  rw [reduce_opaque p ht (c := normalize t q) (halpha ▸ le_opaqueMarker)]
  exact Color.eq_of_channels (shiftRight_shiftLeft hwidth hr) (shiftRight_shiftLeft hwidth hg)
    (shiftRight_shiftLeft hwidth hb) halpha.symm

/-- Outside `gb`, the expansion of the reduction of an opaque color clears the low `k(m)` bits of each channel. -/
theorem normalize_reduce (p : Params) {t : Target} (ht : t ≠ .gb) {c : Color} (h : 0x80 ≤ c.a.toNat) :
    normalize t (reduce p t c) =
      ⟨BitVec.ofNat 8 (c.r.toNat - c.r.toNat % 2 ^ channelShift t),
        BitVec.ofNat 8 (c.g.toNat - c.g.toNat % 2 ^ channelShift t),
        BitVec.ofNat 8 (c.b.toNat - c.b.toNat % 2 ^ channelShift t), opaqueMarker⟩ := by
  simp only [reduce_opaque p ht h, normalize, shiftLeft_shiftRight (width_add_shift t)]

/-- The `k(m)` of a mode outside `gb`. -/
theorem channelShift_of_ne {t : Target} (ht : t ≠ .gb) :
    channelShift t = if t ∈ [Target.md, .pce, .pceSprite] then 5 else 3 := by
  cases t with
  | gb => exact absurd rfl ht
  | _ => rfl

/-- Settles O36: the two shifts clear the low bits, and reducing the result again undoes its expansion. -/
theorem normalizeAfterReduceClearsLowBits : Obligations.NormalizeAfterReduceClearsLowBits := by
  intro p t c k ht hopaque hk
  obtain rfl : k = channelShift t := hk.trans (channelShift_of_ne ht).symm
  refine ⟨normalize_reduce p ht hopaque, congrArg (normalize t) (reduceUndoesNormalize p t _ ht ?_)⟩
  exact representable_reduce p t (by rw [reduce_alpha, if_pos hopaque])

/-! ### A gb level falls -/

/-- The weighted sum of a gray color: the weights add up to 1000. -/
theorem lumaSum_gray (x : Byte) : lumaSum x x x = 1000 * x.toNat := by
  unfold lumaSum
  omega

/-- The luma of an expanded level is `64 * L`, on the threshold of the level below for both readings. -/
theorem levelOfSum_expanded (rounding : LumaRounding) {n : Nat} (hn : n ≤ 3) :
    levelOfSum rounding (1000 * (n * 2 ^ 6)) = BitVec.ofNat 8 (n - 1) := by
  interval_cases n <;> cases rounding <;> rfl

/-- Settles O37: the expansion of level `L` is the gray `64 * L`, whose level is `L - 1`. -/
theorem gbLevelFallsByOneEachPass : Obligations.GbLevelFallsByOneEachPass := by
  intro p L hL
  have hshift : (L <<< channelShift .gb).toNat = L.toNat * 2 ^ 6 :=
    shiftLeft_toNat (width_add_shift .gb) (Nat.lt_succ_of_le hL)
  rw [reduce_gb p (c := normalize .gb (grayColor L)) le_opaqueMarker]
  refine congrArg grayColor ?_
  rw [gbLevel, normalize, grayColor, lumaSum_gray, hshift, levelOfSum_expanded p.lumaRounding hL]

end Sys2Proof.Machine

/-! PROOFS. The color packer (43_color_packer.md): the bytes of packed colors (R167 to R171), the colors of unpacked
bytes (R172 to R176), and both directions of the round trip (R178). -/

namespace Sys2Proof.Machine

/-! ### The layout of each mode -/

theorem layoutOf_five :
    ∀ t ∈ [Target.snes, .snesMode7, .gbc, .gba, .gbaAffine],
      layoutOf params t = some fiveBitLayout ∧ channelWidth t = 5 := by
  intro t ht
  cases t with
  | gb | md | pce | pceSprite => simp at ht
  | _ => exact ⟨rfl, rfl⟩

theorem layoutOf_three {t : Target} {L : Layout}
    (h : t = .md ∧ L = params.mdLayout ∨ t ∈ [Target.pce, .pceSprite] ∧ L = params.pceLayout) :
    layoutOf params t = some L ∧ channelWidth t = 3 := by
  obtain ⟨rfl, rfl⟩ | ⟨ht, rfl⟩ := h
  · exact ⟨rfl, rfl⟩
  · obtain rfl | rfl := List.mem_pair.1 ht <;> exact ⟨rfl, rfl⟩

/-! ### Packing two-byte colors -/

/-- In a two-byte mode, in-range colors give the bytes of each in order. -/
theorem answerOf_packColors_of_inRange {t : Target} {L : Layout} (hL : layoutOf params t = some L) {qs : List Color}
    (hrange : ∀ q ∈ qs, inRange t q = true) :
    answerOf (.packColors (.real t)) (qs.map .color) = respondBytes (qs.flatMap (bytes2 L)) := by
  rw [answerOf_packColors hL, List.all_eq_true.2 hrange, precondition_true]

/-- In a two-byte mode, in-range colors give the bytes of each in order, and one color out of range refuses the
request. -/
theorem packColors_outcomes {t : Target} {L : Layout} (hL : layoutOf params t = some L) {qs : List Color} {s : State}
    (hs : s.input = qs.map .color) :
    ((∀ q ∈ qs, inRange t q = true) →
      AnswersOk (.packColors (.real t)) s (qs.flatMap fun q => (bytes2 L q).map .byte)) ∧
    ((∃ q ∈ qs, inRange t q = false) → exec (.packColors (.real t)) s = .refused .channelOutOfRange) := by
  constructor
  · intro hrange
    refine answers_ok_of_input hs ?_
    rw [answerOf_packColors_of_inRange hL hrange, respondBytes, List.map_flatMap]
  · intro hout
    have hall : qs.all (inRange t) = false := by simpa using hout
    refine refused_of_input hs ?_
    rw [answerOf_packColors hL, hall, precondition_false]

/-- The word of an in-range color, by its mode's layout. -/
theorem hardwareWord_of_inRange {t : Target} {L : Layout} (hL : layoutOf params t = some L) {q : Color}
    (h : inRange t q = true) :
    (hardwareWord L q).toNat = q.r.toNat * 2 ^ L.posR + q.g.toNat * 2 ^ L.posG + q.b.toNat * 2 ^ L.posB := by
  obtain ⟨hr, hg, hb⟩ := inRange_iff.1 h
  exact hardwareWord_toNat (fieldsFit_layoutOf hL) hr hg hb

/-- Settles O38: the word of the five-bit layout is the sum, and its low byte comes first. -/
theorem packColorsFiveBit : Obligations.PackColorsFiveBit := by
  intro t qs s ht hs
  obtain ⟨hL, -⟩ := layoutOf_five t ht
  obtain ⟨hok, hrefused⟩ := packColors_outcomes hL hs
  refine ⟨fun hrange => ?_, hrefused⟩
  convert hok hrange using 1
  refine List.flatMap_congr fun q hq => ?_
  have hword := hardwareWord_of_inRange hL (hrange q hq)
  rw [bytes2, bytesOfWord_eq, hword]
  simp [fiveBitLayout]

/-- Settles O39: the word of the mode's layout is the sum, in the layout's byte order. -/
theorem packColorsThreeBit : Obligations.PackColorsThreeBit := by
  intro t L qs s ht hs
  obtain ⟨hL, -⟩ := layoutOf_three ht
  obtain ⟨hok, hrefused⟩ := packColors_outcomes hL hs
  refine ⟨fun hrange => ?_, hrefused⟩
  convert hok hrange using 1
  refine List.flatMap_congr fun q hq => ?_
  rw [bytes2, bytesOfWord_eq, hardwareWord_of_inRange hL (hrange q hq)]
  cases L.order <;> rfl

/-! ### Packing gb levels -/

/-- The code of a level is its complement (R169). -/
theorem gbCode_toNat {q : Color} (h : q.r.toNat ≤ 3) : (gbCode q).toNat = 3 - q.r.toNat := by
  have hmask : (gbCode q).toNat = (0xFF - q.r).toNat % 4 := by
    rw [gbCode, BitVec.toNat_and]
    exact Nat.and_two_pow_sub_one_eq_mod _ 2
  have h255 : (0xFF : Byte).toNat = 255 := rfl
  rw [hmask, BitVec.toNat_sub]
  omega

/-- Below bit `k` one value, from bit `k` another. -/
theorem or_shiftLeft_toNat {x y : Byte} {k : Nat} (hx : x.toNat < 2 ^ k) (hy : y.toNat * 2 ^ k < 256) :
    (x ||| (y <<< k)).toNat = x.toNat + y.toNat * 2 ^ k := by
  rw [BitVec.toNat_or, BitVec.toNat_shiftLeft, Nat.shiftLeft_eq, Nat.mod_eq_of_lt hy, Nat.or_comm, ← Nat.shiftLeft_eq,
    ← Nat.shiftLeft_add_eq_or_of_lt hx, Nat.add_comm]

/-- The palette byte of four levels is its four codes in base 4. -/
theorem gbByte_toNat {q0 q1 q2 q3 : Color} (h0 : q0.r.toNat ≤ 3) (h1 : q1.r.toNat ≤ 3) (h2 : q2.r.toNat ≤ 3)
    (h3 : q3.r.toNat ≤ 3) :
    (gbByte q0 q1 q2 q3).toNat =
      (3 - q0.r.toNat) + (3 - q1.r.toNat) * 4 + (3 - q2.r.toNat) * 16 + (3 - q3.r.toNat) * 64 := by
  have e0 := gbCode_toNat h0
  have e1 := gbCode_toNat h1
  have e2 := gbCode_toNat h2
  have e3 := gbCode_toNat h3
  have e01 := or_shiftLeft_toNat (x := gbCode q0) (y := gbCode q1) (k := 2) (by omega) (by omega)
  have e012 := or_shiftLeft_toNat (x := gbCode q0 ||| (gbCode q1 <<< 2)) (y := gbCode q2) (k := 4) (by omega) (by omega)
  rw [gbByte, or_shiftLeft_toNat (by omega) (by omega)]
  omega

/-- Four colors are packed behind the precondition on quantized colors. -/
theorem answerOf_packColors_gb_four (q0 q1 q2 q3 : Color) :
    answerOf (.packColors (.real .gb)) ([q0, q1, q2, q3].map .color) =
      requireQuantized .gb [q0, q1, q2, q3] (.respond (.seq [.byte (gbByte q0 q1 q2 q3)])) := rfl

/-- Any other count is `STRUCTURAL`. -/
theorem packGb_of_length_ne {t : Target} {qs : List Color} (h : qs.length ≠ 4) : packGb t qs = .raise .structural := by
  unfold packGb
  split
  · exact absurd rfl h
  · rfl

/-- Settles O40: the count first, then the precondition, then one byte of four codes. -/
theorem packColorsGb : Obligations.PackColorsGb := by
  refine fun s => ⟨fun l0 l1 l2 l3 a0 a1 a2 a3 h0 h1 h2 h3 hs => ?_, fun qs hs hlen => ?_, fun qs hs hlen => ?_,
    fun qs hs hlen => ?_⟩
  · obtain ⟨hok, -, -⟩ := requireQuantized_outcomes
      (answerOf_packColors_gb_four ⟨l0, l0, l0, a0⟩ ⟨l1, l1, l1, a1⟩ ⟨l2, l2, l2, a2⟩ ⟨l3, l3, l3, a3⟩) hs
    rw [← gbByte_toNat (q0 := ⟨l0, l0, l0, a0⟩) (q1 := ⟨l1, l1, l1, a1⟩) (q2 := ⟨l2, l2, l2, a2⟩)
      (q3 := ⟨l3, l3, l3, a3⟩) h0 h1 h2 h3, BitVec.ofNat_toNat, BitVec.setWidth_eq]
    refine hok ?_ ?_
    · simp [inRange_iff, channelWidth, familyOf, Nat.lt_succ_of_le, h0, h1, h2, h3]
    · simp [isGray_iff]
  · refine fails_of_input (kind := .structural) hs ?_
    rw [answerOf_packColors_gb, packGb_of_length_ne hlen]
  · obtain ⟨q0, q1, q2, q3, rfl⟩ := List.length_eq_four.1 hlen
    exact (requireQuantized_outcomes (answerOf_packColors_gb_four q0 q1 q2 q3) hs).2.1
  · obtain ⟨q0, q1, q2, q3, rfl⟩ := List.length_eq_four.1 hlen
    exact (requireQuantized_outcomes (answerOf_packColors_gb_four q0 q1 q2 q3) hs).2.2 rfl

/-! ### Unpacking two-byte colors -/

theorem map_byte_pairs (pairs : List (Byte × Byte)) :
    (pairs.flatMap fun x => [x.1, x.2]).map Element.byte = pairs.flatMap fun x => [.byte x.1, .byte x.2] := by
  rw [List.map_flatMap]
  rfl

/-- In a two-byte mode each pair of bytes gives its color. -/
theorem answerOf_unpackColors_pairs {t : Target} {L : Layout} (hL : layoutOf params t = some L)
    (pairs : List (Byte × Byte)) :
    answerOf (.unpackColors (.real t)) (pairs.flatMap fun x => [.byte x.1, .byte x.2]) =
      respondColors (pairs.map fun x => color2 (channelWidth t) L x.1 x.2) := by
  rw [← map_byte_pairs, answerOf_unpackColors_of_even hL (length_pairs_even pairs), colorsOfPairs_pairs]

/-- The color of a pair of bytes, by arithmetic on their word. -/
theorem color2_eq {w : Nat} (hw : w ≤ 8) (L : Layout) (b0 b1 : Byte) :
    color2 w L b0 b1 =
      ⟨BitVec.ofNat 8 ((wordOfBytes L.order b0 b1).toNat / 2 ^ L.posR % 2 ^ w),
        BitVec.ofNat 8 ((wordOfBytes L.order b0 b1).toNat / 2 ^ L.posG % 2 ^ w),
        BitVec.ofNat 8 ((wordOfBytes L.order b0 b1).toNat / 2 ^ L.posB % 2 ^ w), opaqueMarker⟩ := by
  simp only [color2, wordField_eq hw]

/-- Settles O42: five bits from each of the positions 0, 5, 10 of the little-endian word. -/
theorem unpackColorsFiveBit : Obligations.UnpackColorsFiveBit := by
  intro t pairs s ht hs
  obtain ⟨hL, hwidth⟩ := layoutOf_five t ht
  refine answers_ok_of_input hs ?_
  rw [answerOf_unpackColors_pairs hL, respondColors, List.map_map, hwidth]
  refine congrArg (fun elems => Answer.respond (.seq elems)) (List.map_congr_left fun x _ => ?_)
  rw [Function.comp_apply, color2_eq (by decide), wordOfBytes_toNat]
  simp [fiveBitLayout]

/-- Settles O43: three bits from each of the layout's positions, of the word in the layout's byte order. -/
theorem unpackColorsThreeBit : Obligations.UnpackColorsThreeBit := by
  intro t L pairs s ht hs
  obtain ⟨hL, hwidth⟩ := layoutOf_three ht
  refine answers_ok_of_input hs ?_
  rw [answerOf_unpackColors_pairs hL, respondColors, List.map_map, hwidth]
  refine congrArg (fun elems => Answer.respond (.seq elems)) (List.map_congr_left fun x _ => ?_)
  rw [Function.comp_apply, color2_eq (by decide), wordOfBytes_toNat]
  cases L.order <;> rfl

/-! ### Unpacking gb levels -/

/-- The level at a bit offset is the complement of the code there (R175). -/
theorem gbColorAt_eq (B : Byte) (k : Nat) :
    gbColorAt B k = grayColor (BitVec.ofNat 8 (3 - B.toNat / 2 ^ k % 4)) := by
  have hcode : ((B >>> k) &&& 3).toNat = B.toNat / 2 ^ k % 4 := by
    rw [BitVec.toNat_and, BitVec.toNat_ushiftRight, Nat.shiftRight_eq_div_pow]
    exact Nat.and_two_pow_sub_one_eq_mod _ 2
  have hlevel : 3 - ((B >>> k) &&& 3) = BitVec.ofNat 8 (3 - B.toNat / 2 ^ k % 4) := by
    apply BitVec.eq_of_toNat_eq
    rw [BitVec.toNat_sub, hcode, BitVec.toNat_ofNat]
    have h3 : (3 : Byte).toNat = 3 := rfl
    omega
  simp only [gbColorAt, grayColor, hlevel]

theorem unpackGb_of_length_ne {bs : List Byte} (h : bs.length ≠ 1) : unpackGb bs = .raise .structural := by
  unfold unpackGb
  split
  · exact absurd rfl h
  · rfl

/-- Settles O44: one byte holds four codes in base 4, each the complement of its level. -/
theorem unpackColorsGb : Obligations.UnpackColorsGb := by
  refine fun s => ⟨fun B hs => ?_, fun bs hs hlen => ?_⟩
  · refine answers_ok_of_input hs ?_
    rw [show [Element.byte B] = [B].map .byte from rfl, answerOf_unpackColors_gb, unpackGb, gbColors]
    simp only [gbColorAt_eq]
    rfl
  · refine fails_of_input (kind := .structural) hs ?_
    rw [answerOf_unpackColors_gb, unpackGb_of_length_ne hlen]

/-! ### The round trip -/

/-- Unpacking the two bytes of a representable color gives the color back. -/
theorem color2_bytes2_of_representable {t : Target} {L : Layout} (hL : layoutOf params t = some L) {q : Color}
    (h : representable t q = true) :
    ∃ b0 b1, bytes2 L q = [b0, b1] ∧ color2 (channelWidth t) L b0 b1 = q := by
  obtain ⟨hrange, halpha, -⟩ := representable_iff.1 h
  obtain ⟨hr, hg, hb⟩ := inRange_iff.1 hrange
  exact color2_bytes2 (width_le t) (fieldsFit_layoutOf hL) hr hg hb halpha

/-- Unpacking the bytes of representable colors, pair by pair, gives the colors back. -/
theorem colorsOfPairs_bytes2 {t : Target} {L : Layout} (hL : layoutOf params t = some L) {qs : List Color}
    (h : ∀ q ∈ qs, representable t q = true) : colorsOfPairs (channelWidth t) L (qs.flatMap (bytes2 L)) = qs := by
  induction qs with
  | nil => rfl
  | cons q qs ih =>
    obtain ⟨hq, hqs⟩ := List.forall_mem_cons.1 h
    obtain ⟨b0, b1, hbytes, hcolor⟩ := color2_bytes2_of_representable hL hq
    rw [List.flatMap_cons, hbytes, List.cons_append, List.cons_append, List.nil_append, colorsOfPairs, hcolor, ih hqs]

theorem length_flatMap_bytes2 (L : Layout) (qs : List Color) : (qs.flatMap (bytes2 L)).length = 2 * qs.length := by
  simp [List.length_flatMap, length_bytes2, Nat.mul_comm]

/-- In a two-byte mode, unpacking the bytes of representable colors answers the colors. -/
theorem answerOf_unpackColors_bytes2 {t : Target} {L : Layout} (hL : layoutOf params t = some L) {qs : List Color}
    (h : ∀ q ∈ qs, representable t q = true) :
    answerOf (.unpackColors (.real t)) ((qs.flatMap (bytes2 L)).map .byte) = respondColors qs := by
  have heven : (qs.flatMap (bytes2 L)).length % 2 = 0 := by rw [length_flatMap_bytes2, Nat.mul_mod_right]
  rw [answerOf_unpackColors_of_even hL heven, colorsOfPairs_bytes2 hL h]

/-- A representable gb color is the gray of its level. -/
theorem gray_of_representable {q : Color} (h : representable .gb q = true) : q.r.toNat ≤ 3 ∧ q = grayColor q.r := by
  obtain ⟨hrange, halpha, hgray⟩ := representable_iff.1 h
  obtain ⟨hr, -, -⟩ := inRange_iff.1 hrange
  obtain ⟨hrg, hgb⟩ := isGray_iff.1 hgray
  exact ⟨Nat.le_of_lt_succ hr, Color.eq_of_channels rfl hrg.symm (hrg.trans hgb).symm halpha⟩

/-- A code that is the complement of a level gives the gray of the level back. -/
theorem gbColorAt_of_code {B : Byte} {k : Nat} {q : Color} (hgray : q = grayColor q.r)
    (hcode : 3 - B.toNat / 2 ^ k % 4 = q.r.toNat) : gbColorAt B k = q := by
  rw [gbColorAt_eq, hcode, BitVec.ofNat_toNat, BitVec.setWidth_eq, ← hgray]

/-- Unpacking the byte of four representable gb colors gives them back. -/
theorem gbColors_gbByte {q0 q1 q2 q3 : Color} (h : ∀ q ∈ [q0, q1, q2, q3], representable .gb q = true) :
    gbColors (gbByte q0 q1 q2 q3) = [q0, q1, q2, q3] := by
  obtain ⟨l0, g0⟩ := gray_of_representable (h q0 (by simp))
  obtain ⟨l1, g1⟩ := gray_of_representable (h q1 (by simp))
  obtain ⟨l2, g2⟩ := gray_of_representable (h q2 (by simp))
  obtain ⟨l3, g3⟩ := gray_of_representable (h q3 (by simp))
  have hbyte := gbByte_toNat l0 l1 l2 l3
  rw [gbColors, gbColorAt_of_code g0 (by omega), gbColorAt_of_code g1 (by omega), gbColorAt_of_code g2 (by omega),
    gbColorAt_of_code g3 (by omega)]

/-- Settles O45: for `gb` one byte of four codes, elsewhere two bytes of three fields. -/
theorem unpackUndoesPack : Obligations.UnpackUndoesPack := by
  intro t qs s hs hrep hfour
  have hrange : ∀ q ∈ qs, inRange t q = true := fun q hq => (representable_iff.1 (hrep q hq)).1
  by_cases ht : t = .gb
  · subst ht
    obtain ⟨q0, q1, q2, q3, rfl⟩ := List.length_eq_four.1 (hfour rfl)
    obtain ⟨hok, -, -⟩ := requireQuantized_outcomes (answerOf_packColors_gb_four q0 q1 q2 q3) hs
    refine ⟨[gbByte q0 q1 q2 q3], hok hrange fun _ q hq => (representable_iff.1 (hrep q hq)).2.2, fun s' hs' => ?_⟩
    refine answers_ok_of_input hs' ?_
    rw [answerOf_unpackColors_gb, unpackGb, gbColors_gbByte hrep, respondColors]
  · obtain ⟨L, hL⟩ := exists_layoutOf params ht
    exact ⟨qs.flatMap (bytes2 L), answers_ok_of_input hs (answerOf_packColors_of_inRange hL hrange),
      fun s' hs' => answers_ok_of_input hs' (answerOf_unpackColors_bytes2 hL hrep)⟩

/-- Packing the color of two bytes whose unused bits are zero gives the bytes back. -/
theorem bytes2_color2 {w : Nat} {L : Layout} (hw : w ≤ 8) (hL : FieldsFit w L) {b0 b1 : Byte}
    (hunused : ∀ k < 16, ¬ (L.posR ≤ k ∧ k < L.posR + w) → ¬ (L.posG ≤ k ∧ k < L.posG + w) →
      ¬ (L.posB ≤ k ∧ k < L.posB + w) → (wordOfBytes L.order b0 b1).getLsbD k = false) :
    bytes2 L (color2 w L b0 b1) = [b0, b1] := by
  rw [bytes2, color2, hardwareWord_wordFields hw hL hunused, bytesOfWord_wordOfBytes]

theorem inRange_color2 (t : Target) (L : Layout) (b0 b1 : Byte) : inRange t (color2 (channelWidth t) L b0 b1) = true :=
  inRange_iff.2 ⟨wordField_lt (width_le t) _, wordField_lt (width_le t) _, wordField_lt (width_le t) _⟩

/-- The layout and the channel width of each two-byte mode. -/
theorem layoutOf_two_byte {t : Target} {L : Layout} {w : Nat}
    (h : t ∈ [Target.snes, .snesMode7, .gbc, .gba, .gbaAffine] ∧ L = ⟨0, 5, 10, .little⟩ ∧ w = 5 ∨
      t = .md ∧ L = params.mdLayout ∧ w = 3 ∨ t ∈ [Target.pce, .pceSprite] ∧ L = params.pceLayout ∧ w = 3) :
    layoutOf params t = some L ∧ channelWidth t = w := by
  obtain ⟨ht, rfl, rfl⟩ | ⟨ht, hL, rfl⟩ | ⟨ht, hL, rfl⟩ := h
  · exact layoutOf_five t ht
  · exact layoutOf_three (.inl ⟨ht, hL⟩)
  · exact layoutOf_three (.inr ⟨ht, hL⟩)

/-- Settles O46: a word without unused bits is the word of its three fields, which are in range. -/
theorem packUndoesUnpack : Obligations.PackUndoesUnpack := by
  intro t L w pairs s ht hs hunused
  obtain ⟨hL, rfl⟩ := layoutOf_two_byte ht
  have hbytes : ∀ x ∈ pairs, bytes2 L (color2 (channelWidth t) L x.1 x.2) = [x.1, x.2] := by
    intro x hx
    refine bytes2_color2 (width_le t) (fieldsFit_layoutOf hL) fun k hk hr hg hb => ?_
    have hzero := hunused x hx k hk ⟨hr, hg, hb⟩
    rw [BitVec.getLsbD, wordOfBytes_toNat]
    exact hzero
  refine ⟨pairs.map fun x => color2 (channelWidth t) L x.1 x.2, answers_ok_of_input hs ?_, fun s' hs' => ?_⟩
  · rw [answerOf_unpackColors_pairs hL, respondColors]
  · obtain ⟨hok, -⟩ := packColors_outcomes hL hs'
    rw [hs]
    convert hok (List.forall_mem_map.2 fun x _ => inRange_color2 t L x.1 x.2) using 1
    rw [List.flatMap_map]
    refine List.flatMap_congr fun x hx => ?_
    rw [hbytes x hx]
    rfl

end Sys2Proof.Machine

/-! PROOFS. The pseudo-operations (30_encoding.md R83): what a request issued by the host delivers, and `EXPORT_COLORS`
followed by `IMPORT_COLORS`. -/

namespace Sys2Proof.Machine

/-- A request issued for an operation that answers `OK` adds that response and nothing else. -/
theorem issue_requestOf {i : Instr} {input : List Element} {out : Output} (hwf : i.wellFormed = true)
    (haccepts : i.inputShape.accepts input = true) (h : answerOf i input = .respond out) (script : List Request)
    (rs : List Response) :
    issue (requestOf i input) ⟨none, script, rs⟩ = .next ⟨none, script, ⟨.ok, out⟩ :: rs⟩ :=
  (step_of_encode hwf haccepts script rs).trans (answers_ok_of_input rfl h)

/-- After an `OK` response with a sequence the second request is issued on that sequence. -/
theorem thenIssue_ok (second : List Element → Request) (elems : List Element) (script : List Request)
    (rs : List Response) :
    thenIssue (.next ⟨none, script, ⟨.ok, .seq elems⟩ :: rs⟩) second =
      issue (second elems) ⟨none, script, ⟨.ok, .seq elems⟩ :: rs⟩ := rfl

/-- Outside `gb`, exporting opaque colors delivers their reductions and then the bytes of these. -/
theorem exportColors_eq {t : Target} {L : Layout} (hL : layoutOf params t = some L) (cs : List Color)
    (script : List Request) (rs : List Response) :
    exportColors (.real t) (cs.map .color) ⟨none, script, rs⟩ =
      .next ⟨none, script, ⟨.ok, .seq (((cs.map (reduce params t)).flatMap (bytes2 L)).map .byte)⟩ ::
        ⟨.ok, .seq ((cs.map (reduce params t)).map .color)⟩ :: rs⟩ := by
  rw [exportColors, issue_requestOf (i := .reduceColors (.real t)) rfl (accepts_colors.2 ⟨cs, rfl⟩)
    (answerOf_reduceColors (.real t) cs), thenIssue_ok]
  exact issue_requestOf (i := .packColors (.real t)) rfl (accepts_colors.2 ⟨_, rfl⟩)
    (answerOf_packColors_of_inRange hL (List.forall_mem_map.2 fun c _ => inRange_reduce params t c)) script _

/-- Outside `gb`, importing the bytes of representable colors delivers the colors and then their expansions. -/
theorem importColors_bytes2 {t : Target} {L : Layout} (hL : layoutOf params t = some L) {qs : List Color}
    (h : ∀ q ∈ qs, representable t q = true) (script : List Request) (rs : List Response) :
    importColors (.real t) ((qs.flatMap (bytes2 L)).map .byte) ⟨none, script, rs⟩ =
      .next ⟨none, script, ⟨.ok, .seq ((qs.map (normalize t)).map .color)⟩ ::
        ⟨.ok, .seq (qs.map .color)⟩ :: rs⟩ := by
  have hnormalized : answerOf (.normalizeColors (.real t)) (qs.map .color) = respondColors (qs.map (normalize t)) := by
    rw [answerOf_normalizeColors]
    exact requireQuantized_ok (fun q hq => (representable_iff.1 (h q hq)).1)
      (fun q hq => (representable_iff.1 (h q hq)).2.2)
  rw [importColors, issue_requestOf (i := .unpackColors (.real t)) rfl (accepts_bytes.2 ⟨_, rfl⟩)
    (answerOf_unpackColors_bytes2 hL h), thenIssue_ok]
  exact issue_requestOf (i := .normalizeColors (.real t)) rfl (accepts_colors.2 ⟨qs, rfl⟩) hnormalized script _

/-- Outside `gb`, the expansions of the reductions of opaque colors, with the low bits of each channel cleared. -/
theorem map_normalize_reduce (p : Params) {t : Target} (ht : t ≠ .gb) {cs : List Color}
    (hopaque : ∀ c ∈ cs, 0x80 ≤ c.a.toNat) :
    ((cs.map (reduce p t)).map (normalize t)).map Element.color = cs.map fun c => .color
      ⟨BitVec.ofNat 8 (c.r.toNat - c.r.toNat % 2 ^ channelShift t),
        BitVec.ofNat 8 (c.g.toNat - c.g.toNat % 2 ^ channelShift t),
        BitVec.ofNat 8 (c.b.toNat - c.b.toNat % 2 ^ channelShift t), 0xFF⟩ := by
  rw [List.map_map, List.map_map]
  exact List.map_congr_left fun c hc => congrArg Element.color (normalize_reduce p ht (hopaque c hc))

/-- Settles O47: the reductions of opaque colors are representable, so the import expands just these. -/
theorem exportThenImportClearsLowBits : Obligations.ExportThenImportClearsLowBits := by
  intro t cs k script rs ht hopaque hk
  obtain rfl : k = channelShift t := hk.trans (channelShift_of_ne ht).symm
  obtain ⟨L, hL⟩ := exists_layoutOf params ht
  have hrep : ∀ q ∈ cs.map (reduce params t), representable t q = true :=
    List.forall_mem_map.2 fun c hc => representable_reduce params t (by rw [reduce_alpha, if_pos (hopaque c hc)])
  refine ⟨(cs.map (reduce params t)).flatMap (bytes2 L), _, ⟨.ok, .seq ((cs.map (reduce params t)).map .color)⟩,
    exportColors_eq hL cs script rs, ?_⟩
  rw [importColors_bytes2 hL hrep, map_normalize_reduce params ht hopaque]

end Sys2Proof.Machine

/-! PROOFS. The tile packer (44_tile_packer.md): sprite planes (R209), passthrough (R206, R207), the length rules (R205,
R212), the refusals (R202, R203), unpacking (R212, R213), and both directions of the round trip (R215). -/

namespace Sys2Proof.Machine

/-! ### Packing and unpacking by layout -/

/-- One element out of range fails the precondition on indexes. -/
theorem indexInRange_eq_false {bpp : Nat} {d : List Index} (h : ∃ x ∈ d, 2 ^ bpp ≤ x.toNat) :
    indexInRange bpp d = false := by
  simpa [indexInRange] using h

theorem packTileAs_planar2_eq (p : Params) (bpp : Nat) (d : List Index) :
    packTileAs p .planar2 bpp d =
      lengthRule (decide (d.length = 64))
        (precondition (indexInRange bpp d) .indexOutOfRange (respondBytes (planar2 bpp d))) := by
  have hrule : (decide (d.length % 8 = 0) && decide (d.length = 64)) = decide (d.length = 64) := by
    rw [← Bool.decide_and, decide_eq_decide]
    omega
  rw [packTileAs, hrule]

/-- At any other depth than 8 bpp the nibble layout has the rules of 4 bpp. -/
theorem packTileAs_nibble_of_ne (p : Params) {bpp : Nat} (hb : bpp ≠ 8) (d : List Index) :
    packTileAs p .nibble bpp d =
      lengthRule (decide (d.length % 2 = 0))
        (precondition (indexInRange 4 d) .indexOutOfRange (respondBytes (nibbles d))) :=
  if_neg hb

theorem unpackTileAs_nibble_of_ne {bpp : Nat} (hb : bpp ≠ 8) (b : List Byte) :
    unpackTileAs .nibble bpp b = respondIndexes (unnibbles b) :=
  if_neg hb

/-! ### Sprite planes -/

theorem answerOf_packTile_sprite (d : List Index) :
    answerOf (.packTile (.real .pceSprite) 4) (d.map .index) =
      lengthRule (decide (d.length % 8 = 0))
        (precondition (indexInRange 4 d) .indexOutOfRange (respondBytes (planar1 params d))) :=
  answerOf_packTile (by decide) d

/-- On this machine the first pixel of eight is the most significant bit of its plane byte. -/
theorem bitAt_planar1_msb {d : List Index} {k j u : Nat} (hk : k < 4) (hj : j < d.length / 8) (hu : u < 8) :
    bitAt (planar1 params d) (k * (d.length / 8) + j) (7 - u) = bitAt d (8 * j + u) k := by
  have hplace : spriteBit params.spriteBitOrder (7 - u) = u := Nat.sub_sub_self (Nat.le_of_lt_succ hu)
  rw [bitAt_planar1 hk hj (by omega), hplace]

/-- Settles O50: the length rule, the precondition, and the bits of the planes. -/
theorem packTilePlanar1Bits : Obligations.PackTilePlanar1Bits := by
  refine fun d s hs => ⟨fun hodd => fails_of_input (kind := .structural) hs ?_, fun heven hrange =>
    ⟨planar1 params d, answers_ok_of_input hs ?_, length_planar1 params d, fun k hk j hj u hu =>
      bitAt_planar1_msb hk hj hu⟩⟩
  · rw [answerOf_packTile_sprite, decide_eq_false hodd, lengthRule_false]
  · rw [answerOf_packTile_sprite, decide_eq_true heven, lengthRule_true, indexInRange_iff.2 hrange, precondition_true,
      respondBytes]

/-! ### Passthrough -/

/-- The modes that pass their elements through at 8 bpp (R206, R207). -/
theorem passthrough_answers {t : Target} (ht : t ∈ [Target.snesMode7, .gba, .gbaAffine]) (x : List (BitVec 8)) :
    answerOf (.packTile (.real t) 8) (x.map .index) = respondBytes x ∧
      answerOf (.unpackTile (.real t) 8) (x.map .byte) = respondIndexes x := by
  cases t with
  | snesMode7 | gba | gbaAffine =>
    exact ⟨answerOf_packTile (by decide) x, answerOf_unpackTile (by decide) (by decide) x⟩
  | _ => simp at ht

/-- Settles O51: bytes and indexes are the same eight bits. -/
theorem tilePassthrough : Obligations.TilePassthrough := by
  intro t x s ht
  obtain ⟨hpack, hunpack⟩ := passthrough_answers ht x
  exact ⟨fun hs => answers_ok_of_input hs hpack, fun hs => answers_ok_of_input hs hunpack⟩

/-! ### Length rules and refusals -/

/-- No mode of the 2-bit-plane layout is `pce_sprite`. -/
theorem ne_pceSprite_of_planar2 {t : Target} (h : tileLayout t = .planar2) : t ≠ .pceSprite := by
  rintro rfl
  cases h

/-- `UNPACK_TILE` of a 2-bit-plane mode: its length rule, then 64 indexes. -/
theorem answerOf_unpackTile_planar2 {t : Target} {bpp : Nat} (hlayout : tileLayout t = .planar2)
    (hb : bpp ∈ allowedBpps t) (b : List Byte) :
    answerOf (.unpackTile (.real t) bpp) (b.map .byte) =
      lengthRule (decide (b.length = 8 * bpp)) (respondIndexes (unplanar2 bpp b)) := by
  rw [answerOf_unpackTile (ne_pceSprite_of_planar2 hlayout) hb, hlayout, unpackTileAs]

/-- Settles O52: in both directions the length is looked at before the elements are. -/
theorem planar2LengthRules : Obligations.Planar2LengthRules := by
  intro t bpp s ht
  obtain ⟨hlayout, hb⟩ := planar2_allowed ht
  refine ⟨fun d hs hlen => fails_of_input (kind := .structural) hs ?_, fun b hs hlen =>
    fails_of_input (kind := .structural) hs ?_⟩
  · rw [answerOf_packTile hb, hlayout, packTileAs_planar2_eq, decide_eq_false hlen, lengthRule_false]
  · rw [answerOf_unpackTile_planar2 hlayout hb, decide_eq_false hlen, lengthRule_false]

/-- A depth the mode does not allow is refused before the indexes are looked at. -/
theorem answerOf_packTile_of_not_mem {t : Target} {bpp : Nat} (hb : bpp ∉ allowedBpps t) (d : List Index) :
    answerOf (.packTile (.real t) bpp) (d.map .index) = .refuse .bppNotAllowed := by
  simp [answerOf, packTile, hb]

/-- A depth the mode does not allow is refused before the bytes are looked at. -/
theorem answerOf_unpackTile_of_not_mem {t : Target} {bpp : Nat} (ht : t ≠ .pceSprite) (hb : bpp ∉ allowedBpps t)
    (b : List Byte) : answerOf (.unpackTile (.real t) bpp) (b.map .byte) = .refuse .bppNotAllowed := by
  simp [answerOf, unpackTile, ht, hb]

/-- Every index is below `2 ^ 8`. -/
theorem not_exists_index_ge (d : List Index) : ¬ ∃ x ∈ d, 2 ^ 8 ≤ x.toNat :=
  fun ⟨x, _, hx⟩ => Nat.not_lt.2 hx x.isLt

/-- Once the length rule of the 2-bit-plane layout is met, an index out of range is refused. -/
theorem packTileAs_planar2_refuse (p : Params) {bpp : Nat} {d : List Index} (hlen : d.length = 64)
    (hout : ∃ x ∈ d, 2 ^ bpp ≤ x.toNat) : packTileAs p .planar2 bpp d = .refuse .indexOutOfRange := by
  rw [packTileAs_planar2_eq, decide_eq_true hlen, lengthRule_true, indexInRange_eq_false hout, precondition_false]

/-- Once the length rule of the nibble layout is met, an index out of range is refused; at 8 bpp there is none. -/
theorem packTileAs_nibble_refuse (p : Params) {bpp : Nat} (hb : bpp = 4 ∨ bpp = 8) {d : List Index}
    (hlen : d.length % 2 = 0) (hout : ∃ x ∈ d, 2 ^ bpp ≤ x.toNat) :
    packTileAs p .nibble bpp d = .refuse .indexOutOfRange := by
  obtain rfl | rfl := hb
  · rw [packTileAs_nibble_of_ne p (by decide), decide_eq_true hlen, lengthRule_true, indexInRange_eq_false hout,
      precondition_false]
  · exact absurd hout (not_exists_index_ge d)

/-- Once the length rule of the 1-bit-plane layout is met, an index out of range is refused. -/
theorem packTileAs_planar1_refuse (p : Params) {d : List Index} (hlen : d.length % 8 = 0)
    (hout : ∃ x ∈ d, 2 ^ 4 ≤ x.toNat) : packTileAs p .planar1 4 d = .refuse .indexOutOfRange := by
  rw [packTileAs, decide_eq_true hlen, lengthRule_true, indexInRange_eq_false hout, precondition_false]

/-- Settles O53: the depth is checked first, and the range of the indexes behind the layout's length rule. -/
theorem tileRefusals : Obligations.TileRefusals := by
  refine fun t bpp s => ⟨fun hb => ⟨fun d hs => refused_of_input hs (answerOf_packTile_of_not_mem hb d),
    fun b hs ht => refused_of_input hs (answerOf_unpackTile_of_not_mem ht hb b)⟩, fun hb d hs hout hlen =>
    refused_of_input hs ?_⟩
  rw [answerOf_packTile hb]
  cases t with
  | snes | gb | gbc | pce => exact packTileAs_planar2_refuse params hlen hout
  | gba | gbaAffine | md =>
    refine packTileAs_nibble_refuse params ?_ hlen hout
    simp only [allowedBpps, List.mem_cons, List.not_mem_nil, or_false] at hb
    omega
  | pceSprite =>
    obtain rfl : bpp = 4 := List.mem_singleton.1 hb
    exact packTileAs_planar1_refuse params hlen hout
  | snesMode7 =>
    obtain rfl : bpp = 8 := List.mem_singleton.1 hb
    exact absurd hout (not_exists_index_ge d)

/-! ### Unpacking, bit by bit -/

/-- Bit `2 * p + j` of an index is in byte `2 * row + j` of block `p`, the first column in the most significant bit
(R212). -/
theorem bitAt_unplanar2_plane {bpp : Nat} (b : List Byte) {p row col j : Nat} (heven : bpp % 2 = 0) (hle : bpp ≤ 8)
    (hp : p < bpp / 2) (hrow : row < 8) (hcol : col < 8) (hj : j < 2) :
    bitAt (unplanar2 bpp b) (8 * row + col) (2 * p + j) = bitAt b (16 * p + 2 * row + j) (7 - col) := by
  rw [bitAt_unplanar2 (by omega) (by omega), decide_eq_true (by omega), Bool.true_and]
  congr 1 <;> omega

/-- An unpacked tile has 64 elements, each in range. -/
theorem getD_unplanar2_lt (bpp : Nat) (b : List Byte) {i : Nat} (hi : i < 64) :
    ((unplanar2 bpp b).getD i 0).toNat < 2 ^ bpp := by
  have hlen : i < (unplanar2 bpp b).length := by rwa [length_unplanar2]
  rw [List.getD_eq_getElem _ _ hlen]
  exact unplanar2_lt b _ (List.getElem_mem hlen)

/-- Settles O54: the answer is `unplanar2 bpp b`, whose even and odd bits are the two planes of a block. -/
theorem unpackTilePlanar2Bits : Obligations.UnpackTilePlanar2Bits := by
  intro t bpp b s ht hs hlen
  obtain ⟨hlayout, hb⟩ := planar2_allowed ht
  obtain ⟨heven, hle⟩ := allowedBpps_even hb
  refine ⟨unplanar2 bpp b, answers_ok_of_input hs ?_, length_unplanar2 bpp b, fun row hrow col hcol =>
    ⟨fun p hp => ⟨bitAt_unplanar2_plane (j := 0) b heven hle hp hrow hcol Nat.two_pos,
      bitAt_unplanar2_plane (j := 1) b heven hle hp hrow hcol Nat.one_lt_two⟩, getD_unplanar2_lt bpp b (by omega)⟩⟩
  rw [answerOf_unpackTile_planar2 hlayout hb, decide_eq_true hlen, lengthRule_true, respondIndexes]

/-- The two nibbles of a byte, as numbers. -/
theorem nibbles_of_byte (x : Byte) :
    x &&& (0x0F : Byte) = BitVec.ofNat 8 (x.toNat % 16) ∧ x >>> 4 = BitVec.ofNat 8 (x.toNat / 16) := by
  rw [← low_nibble, ← high_nibble, BitVec.ofNat_toNat, BitVec.ofNat_toNat, BitVec.setWidth_eq, BitVec.setWidth_eq]
  exact ⟨rfl, rfl⟩

/-- In `gba` and `md`, `UNPACK_TILE` at 4 bpp has no length rule. -/
theorem answerOf_unpackTile_nibble {t : Target} (ht : t ∈ [Target.gba, .md]) (b : List Byte) :
    answerOf (.unpackTile (.real t) 4) (b.map .byte) = respondIndexes (unnibbles b) := by
  obtain rfl | rfl := List.mem_pair.1 ht <;> exact answerOf_unpackTile (by decide) (by decide) b

/-- Settles O55: the remainder by 16 and then the quotient, byte by byte. -/
theorem unpackTileNibbles : Obligations.UnpackTileNibbles := by
  intro t b s ht hs
  refine answers_ok_of_input hs ?_
  rw [answerOf_unpackTile_nibble ht, respondIndexes, unnibbles, List.map_flatMap]
  refine congrArg (fun elems => Answer.respond (.seq elems)) (List.flatMap_congr fun x _ => ?_)
  obtain ⟨hlow, hhigh⟩ := nibbles_of_byte x
  rw [hlow, hhigh]
  rfl

/-! ### The round trip -/

/-- A length rule is passed by what it answers. -/
theorem lengthRule_eq_respond {ok : Bool} {go : Answer} {out : Output} :
    lengthRule ok go = .respond out ↔ ok = true ∧ go = .respond out := by
  cases ok <;> simp

/-- A precondition is met by what it answers. -/
theorem precondition_eq_respond {ok : Bool} {why : Refusal} {go : Answer} {out : Output} :
    precondition ok why go = .respond out ↔ ok = true ∧ go = .respond out := by
  cases ok <;> simp

theorem respondBytes_inj {bs b : List Byte} (h : respondBytes bs = respondBytes b) : bs = b :=
  map_byte_injective (by simpa [respondBytes] using h)

theorem respondIndexes_inj {d e : List Index} (h : respondIndexes d = respondIndexes e) : d = e :=
  map_index_injective (by simpa [respondIndexes] using h)

/-- In every layout but the sprites' one, unpacking what was packed gives the indexes back. -/
theorem unpackTileAs_of_packTileAs {p : Params} {layout : TileLayout} {bpp : Nat} {d : List Index} {b : List Byte}
    (hlayout : layout ≠ .planar1) (heven : bpp % 2 = 0) (h : packTileAs p layout bpp d = respondBytes b) :
    unpackTileAs layout bpp b = respondIndexes d := by
  cases layout with
  | planar2 =>
    rw [packTileAs_planar2_eq] at h
    obtain ⟨hlen, hgo⟩ := lengthRule_eq_respond.1 h
    obtain ⟨hrange, hbytes⟩ := precondition_eq_respond.1 hgo
    obtain rfl := respondBytes_inj hbytes
    rw [unpackTileAs, length_planar2, decide_eq_true rfl, lengthRule_true,
      unplanar2_planar2 heven (of_decide_eq_true hlen) (indexInRange_iff.1 hrange)]
  | direct =>
    obtain rfl : d = b := respondBytes_inj h
    rfl
  | nibble =>
    by_cases hb : bpp = 8
    · subst hb
      obtain rfl : d = b := respondBytes_inj h
      rfl
    · rw [packTileAs_nibble_of_ne p hb] at h
      obtain ⟨hlen, hgo⟩ := lengthRule_eq_respond.1 h
      obtain ⟨hrange, hbytes⟩ := precondition_eq_respond.1 hgo
      obtain rfl := respondBytes_inj hbytes
      rw [unpackTileAs_nibble_of_ne hb, unnibbles_nibbles (of_decide_eq_true hlen) (indexInRange_iff.1 hrange)]
  | planar1 => exact absurd rfl hlayout

/-- In every layout, packing what was unpacked gives the bytes back. -/
theorem packTileAs_of_unpackTileAs (p : Params) {layout : TileLayout} {bpp : Nat} {b : List Byte} {d : List Index}
    (heven : bpp % 2 = 0) (hle : bpp ≤ 8) (h : unpackTileAs layout bpp b = respondIndexes d) :
    packTileAs p layout bpp d = respondBytes b := by
  cases layout with
  | planar2 =>
    obtain ⟨hlen, hindexes⟩ := lengthRule_eq_respond.1 h
    obtain rfl := respondIndexes_inj hindexes
    rw [packTileAs_planar2 p (length_unplanar2 bpp b) (unplanar2_lt b),
      planar2_unplanar2 heven hle (of_decide_eq_true hlen)]
  | direct =>
    obtain rfl : b = d := respondIndexes_inj h
    rfl
  | nibble =>
    by_cases hb : bpp = 8
    · subst hb
      obtain rfl : b = d := respondIndexes_inj h
      rfl
    · rw [unpackTileAs_nibble_of_ne hb] at h
      obtain rfl := respondIndexes_inj h
      have hpairs : (unnibbles b).length % 2 = 0 := by rw [length_unnibbles, Nat.mul_mod_right]
      rw [packTileAs_nibble_of_ne p hb, decide_eq_true hpairs, lengthRule_true, indexInRange_iff.2 (unnibbles_lt b),
        precondition_true, nibbles_unnibbles]
  | planar1 => cases h

/-- Only `pce_sprite` has 1-bit planes. -/
theorem tileLayout_ne_planar1 {t : Target} (ht : t ≠ .pceSprite) : tileLayout t ≠ .planar1 := by
  cases t with
  | pceSprite => exact absurd rfl ht
  | _ => decide

/-- Settles O57: a tile is packed at an allowed depth only, and then its layout's unpacking undoes the packing. -/
theorem unpackUndoesPackTile : Obligations.UnpackUndoesPackTile := by
  intro t bpp d b s s' ht hs hpacked hs'
  have hanswer := answers_ok_iff.1 hpacked
  rw [hs] at hanswer
  have hb := allowed_of_packTile hanswer
  rw [answerOf_packTile hb] at hanswer
  refine answers_ok_of_input hs' ?_
  rw [answerOf_unpackTile ht hb]
  exact unpackTileAs_of_packTileAs (tileLayout_ne_planar1 ht) (allowedBpps_even hb).1 hanswer

/-- Settles O58: a tile is unpacked at an allowed depth only, and then its layout's packing undoes the unpacking. -/
theorem packUndoesUnpackTile : Obligations.PackUndoesUnpackTile := by
  intro t bpp b d s s' hs hunpacked hs'
  have hanswer := answers_ok_iff.1 hunpacked
  rw [hs] at hanswer
  obtain ⟨hb, ht⟩ := allowed_of_unpackTile hanswer
  obtain ⟨heven, hle⟩ := allowedBpps_even hb
  rw [answerOf_unpackTile ht hb] at hanswer
  refine answers_ok_of_input hs' ?_
  rw [answerOf_packTile hb]
  exact packTileAs_of_unpackTileAs params heven hle hanswer

end Sys2Proof.Machine

/-! PROOFS. The length of an output (70_reset_and_hazards.md R277): what an operation that answers `OK` has taken and
met, and how many elements it then gives, unit by unit. -/

namespace Sys2Proof.Machine

/-! ### What an operation that answers has taken -/

theorem eq_nil_of_takeNothing {input : List Element} {go : Answer} {out : Output}
    (h : takeNothing input go = .respond out) : input = [] ∧ go = .respond out := by
  obtain ⟨hin, hgo⟩ | ⟨-, hgo⟩ := takeNothing_cases input go
  · exact ⟨hin, hgo ▸ h⟩
  · rw [hgo] at h
    cases h

theorem exists_of_takeColor {input : List Element} {go : Color → Answer} {out : Output}
    (h : takeColor input go = .respond out) : ∃ c, input = [.color c] ∧ go c = .respond out := by
  obtain ⟨c, hin, hgo⟩ | ⟨-, hgo⟩ := takeColor_cases input go
  · exact ⟨c, hin, hgo ▸ h⟩
  · rw [hgo] at h
    cases h

theorem exists_of_takeColors {input : List Element} {go : List Color → Answer} {out : Output}
    (h : takeColors input go = .respond out) : ∃ cs, input = cs.map .color ∧ go cs = .respond out := by
  obtain ⟨cs, hin, hgo⟩ | ⟨-, hgo⟩ := takeColors_cases input go
  · exact ⟨cs, hin, hgo ▸ h⟩
  · rw [hgo] at h
    cases h

theorem exists_of_takeColorSet {input : List Element} {go : List Color → Answer} {out : Output}
    (h : takeColorSet input go = .respond out) : ∃ cs, input = cs.map .color ∧ go cs = .respond out := by
  obtain ⟨cs, hin, -, hgo⟩ | ⟨-, hgo⟩ := takeColorSet_cases input go
  · exact ⟨cs, hin, hgo ▸ h⟩
  · rw [hgo] at h
    cases h

theorem exists_of_takeBytes {input : List Element} {go : List Byte → Answer} {out : Output}
    (h : takeBytes input go = .respond out) : ∃ bs, input = bs.map .byte ∧ go bs = .respond out := by
  obtain ⟨bs, hin, hgo⟩ | ⟨-, hgo⟩ := takeBytes_cases input go
  · exact ⟨bs, hin, hgo ▸ h⟩
  · rw [hgo] at h
    cases h

theorem exists_of_takeIndexes {input : List Element} {go : List Index → Answer} {out : Output}
    (h : takeIndexes input go = .respond out) : ∃ d, input = d.map .index ∧ go d = .respond out := by
  obtain ⟨d, hin, hgo⟩ | ⟨-, hgo⟩ := takeIndexes_cases input go
  · exact ⟨d, hin, hgo ▸ h⟩
  · rw [hgo] at h
    cases h

theorem exists_of_forTarget {m : Mode} {go : Target → Answer} {out : Output} (h : forTarget m go = .respond out) :
    ∃ t, m = .real t ∧ go t = .respond out := by
  cases m with
  | none => cases h
  | real t => exact ⟨t, rfl, h⟩

theorem length_of_respondColors {cs : List Color} {elems : List Element}
    (h : respondColors cs = .respond (.seq elems)) : elems.length = cs.length := by
  cases h
  exact List.length_map _

theorem length_of_respondBytes {bs : List Byte} {elems : List Element}
    (h : respondBytes bs = .respond (.seq elems)) : elems.length = bs.length := by
  cases h
  exact List.length_map _

theorem length_of_respondIndexes {d : List Index} {elems : List Element}
    (h : respondIndexes d = .respond (.seq elems)) : elems.length = d.length := by
  cases h
  exact List.length_map _

/-! ### Units 1 to 3: one word, or one color for each color -/

theorem length_of_query {m : Mode} {f : Target → Nat} {input elems : List Element}
    (h : query m f input = .respond (.seq elems)) : elems.length = 1 := by
  obtain ⟨-, hmode⟩ := eq_nil_of_takeNothing h
  obtain ⟨t, -, hword⟩ := exists_of_forTarget hmode
  cases hword
  rfl

theorem length_of_reduceColor {m : Mode} {input elems : List Element}
    (h : answerOf (.reduceColor m) input = .respond (.seq elems)) : elems.length = input.length := by
  obtain ⟨c, rfl, hmode⟩ := exists_of_takeColor h
  obtain ⟨t, -, hcolors⟩ := exists_of_forTarget hmode
  exact length_of_respondColors hcolors

theorem length_of_reduceColors {m : Mode} {input elems : List Element}
    (h : answerOf (.reduceColors m) input = .respond (.seq elems)) : elems.length = input.length := by
  obtain ⟨cs, rfl, hmode⟩ := exists_of_takeColors h
  obtain ⟨t, -, hcolors⟩ := exists_of_forTarget hmode
  rw [length_of_respondColors hcolors, List.length_map, List.length_map]

/-- `REDUCE_COLORS_SET` answers a set, of no more colors than the input has. -/
theorem length_of_reduceColorsSet {m : Mode} {input : List Element} {out : Output}
    (h : answerOf (.reduceColorsSet m) input = .respond out) :
    ∃ qs, out = .set qs ∧ qs.length ≤ input.length := by
  obtain ⟨cs, rfl, hmode⟩ := exists_of_takeColorSet h
  obtain ⟨t, -, hset⟩ := exists_of_forTarget hmode
  refine ⟨colorSet (cs.map (reduce params t)), (Answer.respond.inj hset).symm, ?_⟩
  simpa using length_colorSet_le (cs.map (reduce params t))

theorem length_of_normalizeColor {m : Mode} {input elems : List Element}
    (h : answerOf (.normalizeColor m) input = .respond (.seq elems)) : elems.length = input.length := by
  obtain ⟨q, rfl, hmode⟩ := exists_of_takeColor h
  obtain ⟨t, -, hquantized⟩ := exists_of_forTarget hmode
  exact length_of_respondColors (requireQuantized_respond hquantized).2

theorem length_of_normalizeColors {m : Mode} {input elems : List Element}
    (h : answerOf (.normalizeColors m) input = .respond (.seq elems)) : elems.length = input.length := by
  obtain ⟨qs, rfl, hmode⟩ := exists_of_takeColors h
  obtain ⟨t, -, hquantized⟩ := exists_of_forTarget hmode
  rw [length_of_respondColors (requireQuantized_respond hquantized).2, List.length_map, List.length_map]

/-! ### Unit 4: two bytes a color, or for `gb` one byte for four -/

theorem length_of_packGb {t : Target} {qs : List Color} {elems : List Element}
    (h : packGb t qs = .respond (.seq elems)) : elems.length = 1 := by
  by_cases hlen : qs.length = 4
  · obtain ⟨q0, q1, q2, q3, rfl⟩ := List.length_eq_four.1 hlen
    exact length_of_respondBytes (requireQuantized_respond h).2
  · rw [packGb_of_length_ne hlen] at h
    cases h

theorem length_of_packColors {m : Mode} {input elems : List Element}
    (h : answerOf (.packColors m) input = .respond (.seq elems)) :
    ∃ t, m = .real t ∧ elems.length = if t = .gb then 1 else 2 * input.length := by
  obtain ⟨qs, rfl, hmode⟩ := exists_of_takeColors h
  obtain ⟨t, rfl, -⟩ := exists_of_forTarget hmode
  refine ⟨t, rfl, ?_⟩
  by_cases ht : t = .gb
  · subst ht
    rw [answerOf_packColors_gb] at h
    rw [if_pos rfl, length_of_packGb h]
  · obtain ⟨L, hL⟩ := exists_layoutOf params ht
    rw [answerOf_packColors hL] at h
    rw [if_neg ht, length_of_respondBytes (precondition_eq_respond.1 h).2, length_flatMap_bytes2, List.length_map]

theorem length_of_unpackGb {bs : List Byte} {elems : List Element} (h : unpackGb bs = .respond (.seq elems)) :
    elems.length = 4 * bs.length := by
  by_cases hlen : bs.length = 1
  · obtain ⟨B, rfl⟩ := List.length_eq_one_iff.1 hlen
    exact length_of_respondColors h
  · rw [unpackGb_of_length_ne hlen] at h
    cases h

theorem length_of_unpackColors {m : Mode} {input elems : List Element}
    (h : answerOf (.unpackColors m) input = .respond (.seq elems)) :
    ∃ t, m = .real t ∧ elems.length = if t = .gb then 4 * input.length else input.length / 2 := by
  obtain ⟨bs, rfl, hmode⟩ := exists_of_takeBytes h
  obtain ⟨t, rfl, -⟩ := exists_of_forTarget hmode
  refine ⟨t, rfl, ?_⟩
  by_cases ht : t = .gb
  · subst ht
    rw [answerOf_unpackColors_gb] at h
    rw [if_pos rfl, length_of_unpackGb h, List.length_map]
  · obtain ⟨L, hL⟩ := exists_layoutOf params ht
    rw [answerOf_unpackColors hL] at h
    rw [if_neg ht, length_of_respondColors (lengthRule_eq_respond.1 h).2, length_colorsOfPairs, List.length_map]

/-! ### Unit 5: by layout -/

/-- The number of bytes `n` indexes are packed into. -/
def packedLength (layout : TileLayout) (bpp n : Nat) : Nat :=
  match layout with
  | .planar2 => 8 * bpp
  | .direct => n
  | .nibble => if bpp = 8 then n else n / 2
  | .planar1 => n / 2

theorem length_of_packTileAs {p : Params} {layout : TileLayout} {bpp : Nat} {d : List Index} {elems : List Element}
    (h : packTileAs p layout bpp d = .respond (.seq elems)) : elems.length = packedLength layout bpp d.length := by
  cases layout with
  | planar2 =>
    obtain ⟨-, hgo⟩ := lengthRule_eq_respond.1 h
    rw [length_of_respondBytes (precondition_eq_respond.1 hgo).2, length_planar2, packedLength]
  | direct => exact length_of_respondBytes h
  | nibble =>
    rw [packedLength]
    by_cases hb : bpp = 8
    · subst hb
      exact length_of_respondBytes h
    · rw [packTileAs_nibble_of_ne p hb] at h
      obtain ⟨-, hgo⟩ := lengthRule_eq_respond.1 h
      rw [if_neg hb, length_of_respondBytes (precondition_eq_respond.1 hgo).2, length_nibbles]
  | planar1 =>
    obtain ⟨hlen, hgo⟩ := lengthRule_eq_respond.1 h
    have hrule : d.length % 8 = 0 := of_decide_eq_true hlen
    rw [length_of_respondBytes (precondition_eq_respond.1 hgo).2, length_planar1, packedLength]
    omega

theorem length_of_packTile {m : Mode} {bpp : Nat} {input elems : List Element}
    (h : answerOf (.packTile m bpp) input = .respond (.seq elems)) :
    ∃ t, m = .real t ∧ bpp ∈ allowedBpps t ∧ elems.length = packedLength (tileLayout t) bpp input.length := by
  obtain ⟨d, rfl, hmode⟩ := exists_of_takeIndexes h
  obtain ⟨t, rfl, -⟩ := exists_of_forTarget hmode
  have hb := allowed_of_packTile h
  rw [answerOf_packTile hb] at h
  exact ⟨t, rfl, hb, by rw [length_of_packTileAs h, List.length_map]⟩

/-- The number of indexes `n` bytes are unpacked into; 1-bit planes are never unpacked. -/
def unpackedLength (layout : TileLayout) (bpp n : Nat) : Nat :=
  match layout with
  | .planar2 => 64
  | .direct => n
  | .nibble => if bpp = 8 then n else 2 * n
  | .planar1 => 0

theorem length_of_unpackTileAs {layout : TileLayout} {bpp : Nat} {b : List Byte} {elems : List Element}
    (h : unpackTileAs layout bpp b = .respond (.seq elems)) : elems.length = unpackedLength layout bpp b.length := by
  cases layout with
  | planar2 =>
    rw [length_of_respondIndexes (lengthRule_eq_respond.1 h).2, length_unplanar2, unpackedLength]
  | direct => exact length_of_respondIndexes h
  | nibble =>
    rw [unpackedLength]
    by_cases hb : bpp = 8
    · subst hb
      exact length_of_respondIndexes h
    · rw [unpackTileAs_nibble_of_ne hb] at h
      rw [if_neg hb, length_of_respondIndexes h, length_unnibbles]
  | planar1 => cases h

theorem length_of_unpackTile {m : Mode} {bpp : Nat} {input elems : List Element}
    (h : answerOf (.unpackTile m bpp) input = .respond (.seq elems)) :
    ∃ t, m = .real t ∧ t ≠ .pceSprite ∧ bpp ∈ allowedBpps t ∧
      elems.length = unpackedLength (tileLayout t) bpp input.length := by
  obtain ⟨b, rfl, hmode⟩ := exists_of_takeBytes h
  obtain ⟨t, rfl, -⟩ := exists_of_forTarget hmode
  obtain ⟨hb, ht⟩ := allowed_of_unpackTile h
  rw [answerOf_unpackTile ht hb] at h
  exact ⟨t, rfl, ht, hb, by rw [length_of_unpackTileAs h, List.length_map]⟩

/-! ### Every operation -/

/-- Outside the 2-bit-plane layout half a byte holds an index at 4 bpp, and a whole one at 8. -/
theorem packedLength_eq {t : Target} {bpp : Nat} (hlayout : tileLayout t ≠ .planar2) (hb : bpp ∈ allowedBpps t)
    (n : Nat) : packedLength (tileLayout t) bpp n = if bpp = 4 then n / 2 else n := by
  cases t with
  | snes | gb | gbc | pce => exact absurd rfl hlayout
  | snesMode7 | gbaAffine | md | pceSprite =>
    cases List.mem_singleton.1 hb
    rfl
  | gba => obtain rfl | rfl := List.mem_pair.1 hb <;> rfl

theorem unpackedLength_eq {t : Target} {bpp : Nat} (hlayout : tileLayout t ≠ .planar2) (ht : t ≠ .pceSprite)
    (hb : bpp ∈ allowedBpps t) (n : Nat) :
    unpackedLength (tileLayout t) bpp n = if bpp = 4 then 2 * n else n := by
  cases t with
  | snes | gb | gbc | pce => exact absurd rfl hlayout
  | pceSprite => exact absurd rfl ht
  | snesMode7 | gbaAffine | md =>
    cases List.mem_singleton.1 hb
    rfl
  | gba => obtain rfl | rfl := List.mem_pair.1 hb <;> rfl

/-- Settles O59: one operation at a time, by what it has taken and met. -/
theorem outputLengthIsBounded : Obligations.OutputLengthIsBounded := by
  refine ⟨fun i s elems h => ?_, fun m s qs h => ?_⟩
  · have hanswer := answers_ok_iff.1 h
    cases i with
    | reduceColor m => exact length_of_reduceColor hanswer
    | reduceColors m => exact length_of_reduceColors hanswer
    | normalizeColor m => exact length_of_normalizeColor hanswer
    | normalizeColors m => exact length_of_normalizeColors hanswer
    | reduceColorsSet m =>
      obtain ⟨qs, hset, -⟩ := length_of_reduceColorsSet hanswer
      cases hset
    | packColors m =>
      obtain ⟨t, rfl, hlen⟩ := length_of_packColors hanswer
      cases t <;> exact hlen
    | unpackColors m =>
      obtain ⟨t, rfl, hlen⟩ := length_of_unpackColors hanswer
      cases t <;> exact hlen
    | packTile m bpp =>
      obtain ⟨t, rfl, hb, hlen⟩ := length_of_packTile hanswer
      cases t with
      | snes | gb | gbc | pce => exact hlen
      | _ => exact hlen.trans (packedLength_eq (by decide) hb _)
    | unpackTile m bpp =>
      obtain ⟨t, rfl, ht, hb, hlen⟩ := length_of_unpackTile hanswer
      cases t with
      | snes | gb | gbc | pce => exact hlen
      | _ => exact hlen.trans (unpackedLength_eq (by decide) ht hb _)
    | _ => exact length_of_query hanswer
  · obtain ⟨qs', hset, hlen⟩ := length_of_reduceColorsSet (answers_ok_iff.1 h)
    cases hset
    exact hlen

end Sys2Proof.Machine
